-- ==== Sys2Proof/Word.lean ====
section
/-! DEFINITION. The word types of the interrupt collector arbiter (`00_scope.md` R6, R8): unsigned bit
vectors, bit 0 the least significant. -/

namespace Sys2Proof

/-- A register word, `REG_W` = 32 bits (R6, R8). -/
abbrev Word := BitVec 32

/-- A byte, 8 bits (R8): the shape of one per-line control byte. -/
abbrev Byte := BitVec 8

/-- A global line index, 0..127 (R6 `N_LINES`, `30_encoding.md` R79). -/
abbrev Line := BitVec 7

/-- A bank index, 0..3 (R6 `N_BANKS`). -/
abbrev Bank := BitVec 2

/-- A register slot number, `off[31:4]` (R7, `30_encoding.md` R76). -/
abbrev UnitNo := BitVec 28

/-- The alias region selector, `off[3:2]`, `SEL_W` = 2 bits (R6, `30_encoding.md` R76). -/
abbrev Sel := BitVec 2

/-- One 32-bit word per bank: line `n` is bit `n mod 32` of word `n div 32` (R6, R8). -/
abbrev Banks := Vector Word 4

end Sys2Proof
end

