-- ==== Sys2Proof/Syntax.lean ====
section
/-! DEFINITION. The syntax of the machine: the port events as the outside world delivers them, and the
operations they decode to, one constructor of `Instr` per row of `spec/opcode_table.json`. -/

namespace Sys2Proof

/-- An event at an input port, as its tuple (`30_encoding.md` R75, R89): "there is no binary instruction
word". The width is any number here, so that illegal widths can be delivered and refused (R87). -/
inductive PortEvent where
  /-- Format BW: `BusWrite(off, w, data)` on port BUS (`20_memory.md` R50). -/
  | bw (off : Word) (width : Nat) (data : Word)
  /-- Format BR: `BusRead(off, w)` on port BUS (R50). -/
  | br (off : Word) (width : Nat)
  /-- Format LN: `SetLine(n, level)` on port LINE (R79). -/
  | ln (line : Line) (level : Bool)
  /-- Format RS: `Reset()` on port RESET (`70_reset_and_hazards.md` R210). -/
  | rs
deriving DecidableEq, Repr

/-- The lanes a legal bus transaction covers: the legal pairs of width and `off[1:0]` of `30_encoding.md`
R77 and no others. -/
inductive Lanes where
  /-- Width 8, at any lane. -/
  | byte (lane : BitVec 2)
  /-- Width 16, at lane 0 (`upper = false`) or lane 2 (`upper = true`). -/
  | half (upper : Bool)
  /-- Width 32, at lane 0. -/
  | word
deriving DecidableEq, Repr

/-- The register a unit selects (`30_encoding.md` R80). -/
inductive Reg where
  | vector
  | levelack
  | ctrl
  | raised (bank : Bank)
  | raw (bank : Bank)
  | intctl (line : Line)
  /-- Out of range: no register (R84). -/
  | undef
deriving DecidableEq, Repr

/-- Why a port event has no meaning in the spec (`30_encoding.md` R87). -/
inductive DecodeError where
  /-- R87 (1): a bus transaction whose width is not 8, 16 or 32. -/
  | malformedWidth (width : Nat)
  /-- R87 (2): a misaligned bus transaction. -/
  | misaligned (off : Word) (width : Nat)
deriving DecidableEq, Repr

/-- The operations, one constructor per row of `spec/opcode_table.json` (`30_encoding.md` R83).
A `sel` that has no effect is kept, so that no bit of an encoding is dropped. -/
inductive Instr where
  /-- RD.VECTOR (`42_register_access.md` R122). -/
  | rdVector (sel : Sel) (lanes : Lanes)
  /-- RD.LEVELACK (R123). -/
  | rdLevelack (sel : Sel) (lanes : Lanes)
  /-- RD.CTRL (R124). -/
  | rdCtrl (sel : Sel) (lanes : Lanes)
  /-- RD.RAISED (R125). -/
  | rdRaised (bank : Bank) (sel : Sel) (lanes : Lanes)
  /-- RD.RAW (R126). -/
  | rdRaw (bank : Bank) (sel : Sel) (lanes : Lanes)
  /-- RD.INTCTL (R127). -/
  | rdIntctl (line : Line) (sel : Sel) (lanes : Lanes)
  /-- RD.UNDEF (R128). -/
  | rdUndef (unit : UnitNo) (sel : Sel) (lanes : Lanes)
  /-- WR.VECTOR (R129). -/
  | wrVector (sel : Sel) (lanes : Lanes) (data : Word)
  /-- WR.LEVELACK.DIR (`43_acknowledge.md` R151, `40_rap.md` R97). -/
  | wrLevelackDir (lanes : Lanes) (data : Word)
  /-- WR.LEVELACK.SET (R151, R98). -/
  | wrLevelackSet (lanes : Lanes) (data : Word)
  /-- WR.LEVELACK.CLR (R151, R99). -/
  | wrLevelackClr (lanes : Lanes) (data : Word)
  /-- WR.LEVELACK.TOG (R151, R100). -/
  | wrLevelackTog (lanes : Lanes) (data : Word)
  /-- WR.CTRL.DIR (`42_register_access.md` R131, R97). -/
  | wrCtrlDir (lanes : Lanes) (data : Word)
  /-- WR.CTRL.SET (R131, R98). -/
  | wrCtrlSet (lanes : Lanes) (data : Word)
  /-- WR.CTRL.CLR (R131, R99). -/
  | wrCtrlClr (lanes : Lanes) (data : Word)
  /-- WR.CTRL.TOG (R131, R100). -/
  | wrCtrlTog (lanes : Lanes) (data : Word)
  /-- WR.RAISED (`42_register_access.md` R132). -/
  | wrRaised (bank : Bank) (sel : Sel) (lanes : Lanes) (data : Word)
  /-- WR.RAW (R133). -/
  | wrRaw (bank : Bank) (sel : Sel) (lanes : Lanes) (data : Word)
  /-- WR.INTCTL.DIR (R134, R97). -/
  | wrIntctlDir (line : Line) (lanes : Lanes) (data : Word)
  /-- WR.INTCTL.SET (R134, R98). -/
  | wrIntctlSet (line : Line) (lanes : Lanes) (data : Word)
  /-- WR.INTCTL.CLR (R134, R99). -/
  | wrIntctlClr (line : Line) (lanes : Lanes) (data : Word)
  /-- WR.INTCTL.TOG (R134, R100). -/
  | wrIntctlTog (line : Line) (lanes : Lanes) (data : Word)
  /-- WR.UNDEF (R135). -/
  | wrUndef (unit : UnitNo) (sel : Sel) (lanes : Lanes) (data : Word)
  /-- LINE.ASSERT (`41_line_latch.md` R111). -/
  | lineAssert (line : Line)
  /-- LINE.DEASSERT (R112). -/
  | lineDeassert (line : Line)
  /-- RESET (`70_reset_and_hazards.md` R210). -/
  | reset
  /-- RAP, the internal function of `40_rap.md` R96; `sel` is "a natural number (0..3 in this block)". It
  has no encoding (`30_encoding.md` R83). -/
  | rap (old : Word) (sel : Nat) (mask : Word) (opnd : Word)
  /-- ARBITRATE, the internal function of `44_arbitration.md` R166. It has no encoding (R165). -/
  | arbitrate
deriving DecidableEq, Repr

/-- The mnemonic of `30_encoding.md` R83, as the opcode table spells it. -/
def Instr.mnemonic : Instr → String
  | .rdVector _ _ => "RD.VECTOR"
  | .rdLevelack _ _ => "RD.LEVELACK"
  | .rdCtrl _ _ => "RD.CTRL"
  | .rdRaised _ _ _ => "RD.RAISED"
  | .rdRaw _ _ _ => "RD.RAW"
  | .rdIntctl _ _ _ => "RD.INTCTL"
  | .rdUndef _ _ _ => "RD.UNDEF"
  | .wrVector _ _ _ => "WR.VECTOR"
  | .wrLevelackDir _ _ => "WR.LEVELACK.DIR"
  | .wrLevelackSet _ _ => "WR.LEVELACK.SET"
  | .wrLevelackClr _ _ => "WR.LEVELACK.CLR"
  | .wrLevelackTog _ _ => "WR.LEVELACK.TOG"
  | .wrCtrlDir _ _ => "WR.CTRL.DIR"
  | .wrCtrlSet _ _ => "WR.CTRL.SET"
  | .wrCtrlClr _ _ => "WR.CTRL.CLR"
  | .wrCtrlTog _ _ => "WR.CTRL.TOG"
  | .wrRaised _ _ _ _ => "WR.RAISED"
  | .wrRaw _ _ _ _ => "WR.RAW"
  | .wrIntctlDir _ _ _ => "WR.INTCTL.DIR"
  | .wrIntctlSet _ _ _ => "WR.INTCTL.SET"
  | .wrIntctlClr _ _ _ => "WR.INTCTL.CLR"
  | .wrIntctlTog _ _ _ => "WR.INTCTL.TOG"
  | .wrUndef _ _ _ _ => "WR.UNDEF"
  | .lineAssert _ => "LINE.ASSERT"
  | .lineDeassert _ => "LINE.DEASSERT"
  | .reset => "RESET"
  | .rap _ _ _ _ => "RAP"
  | .arbitrate => "ARBITRATE"

end Sys2Proof
end

