-- ==== Sys2Proof/Machine/State.lean ====
section
/-! DEFINITION. The state of one collector (`10_state.md` R20), the ports around it (R40), the state after
reset (R44), and the ways a step can stop. -/

namespace Sys2Proof.Machine

/-- "The complete state of one collector instance is the record below and nothing else" (`10_state.md` R20). -/
structure Collector where
  /-- RAISED, the pending latch, one bit per line (R23). -/
  raised : Banks
  /-- IRQEN, the lines that may be IRQ candidates (R24). -/
  irqen : Banks
  /-- FIQEN, the lines that may be FIQ candidates (R24). -/
  fiqen : Banks
  /-- INTCTL, the stored per-line control bytes (R26). -/
  intctl : Vector Byte 128
  /-- VECTOR; VECNUM is bits 6:0 (R30). -/
  vector : Word
  /-- LEVELACK, storage without function (R31). -/
  levelack : Word
  /-- CTRL (R32). -/
  ctrl : Word
  /-- IRQ_OUT, the aggregate IRQ level (R28). -/
  irqOut : Bool
  /-- FIQ_OUT, the aggregate FIQ level (R28). -/
  fiqOut : Bool
deriving DecidableEq, Repr

/-- The direction of an out-of-range access, `dir` in {R, W} (`60_exceptions.md` R186). -/
inductive Dir where
  | read
  | write
deriving DecidableEq, Repr

/-- One event `Diag(dir, off)` on port DIAG (R186). -/
structure Diag where
  dir : Dir
  off : Word
deriving DecidableEq, Repr

/-- What an operation hands back to whoever asked for it. -/
inductive Response where
  /-- Nothing: "a bus write has no read data" (`40_rap.md` R103); so too line events and reset. -/
  | nothing
  /-- The `w`-bit value of a bus read, "delivered zero-extended to 32 bits" (`20_memory.md` R50). -/
  | readData (value : Word)
  /-- RAP's pair `(prev, new)` (`40_rap.md` R96). -/
  | rapPair (prev new : Word)
deriving DecidableEq, Repr

/-- The machine: the collector, and at its ports the events still to come and what has come out. -/
structure State where
  /-- The collector itself. -/
  icoll : Collector
  /-- The model's own: the port events not yet taken, in the one total order of `20_memory.md` R67 (log 1). -/
  input : List PortEvent
  /-- The model's own: what the last operation handed back (log 3). -/
  response : Response
  /-- The model's own: the events emitted on port DIAG, oldest first (R186, log 4). -/
  diags : List Diag
deriving DecidableEq, Repr

/-- Why the machine stops with a fault. -/
inductive Fault where
  /-- "internal invariant violation ... fatal, indicates an implementation bug, not a guest-triggerable
  condition" (`44_arbitration.md` R176, D26). Nobody raises it: the arbitration has no such branch. Safe. -/
  | internalInvariantViolation
deriving DecidableEq, Repr

/-- Why a step has no meaning. -/
inductive Refusal where
  /-- Raised by an arm of `exec` whose instruction has no meaning yet; no arm does. Safe. -/
  | notModelled (mnemonic : String)
  /-- Raised by `step` on a bus transaction whose width is not 8, 16 or 32 (`30_encoding.md` R87 (1)). Safe. -/
  | malformedWidth (width : Nat)
  /-- Raised by `step` on a misaligned bus transaction (R87 (2), `20_memory.md` R54). Safe. -/
  | misaligned (off : Word) (width : Nat)
deriving DecidableEq, Repr

/-- The collector after `Reset()` (`10_state.md` R44, `70_reset_and_hazards.md` R210; the spec's own decision
D9, log 5). -/
def Collector.reset : Collector where
  raised := Vector.replicate 4 0
  irqen := Vector.replicate 4 0
  fiqen := Vector.replicate 4 0
  intctl := Vector.replicate 128 0
  vector := 0x7F
  levelack := 0
  ctrl := 0
  irqOut := false
  fiqOut := false

/-- The machine right after reset: the collector as R44 says, no event delivered yet, nothing handed back,
no diagnostic emitted (logs 1, 3, 4, 5). -/
def State.reset : State where
  icoll := Collector.reset
  input := []
  response := .nothing
  diags := []

end Sys2Proof.Machine
end

