-- ==== Sys2Proof/Machine/Flags.lean ====
section
/-! DEFINITION. The flags: one bit per line in a bank word, the fields of a per-line control byte, the
control register's edge and companion bit (`10_state.md` R23 to R32). -/

namespace Sys2Proof.Machine

/-! ### The bit of a line in a bank array: `X{n}` (`00_scope.md` R8, R9) -/

/-- The bank of line `n`: `n div 32`, bits 6:5 (`30_encoding.md` R79). -/
def bankOf (n : Line) : Bank := n.extractLsb' 5 2

/-- The bit position of line `n`: `n mod 32`, bits 4:0 (R79). -/
def posOf (n : Line) : Nat := (n.extractLsb' 0 5).toNat

/-- `X[b]`, a bank word. -/
def bankWord (x : Banks) (b : Bank) : Word := x[b.toNat]'b.isLt

/-- `X{n}`, the bit of line `n` (R9). -/
def lineBit (x : Banks) (n : Line) : Bool := (bankWord x (bankOf n)).getLsbD (posOf n)

/-- A word with bit `k` written and "the other 31 bits of the bank word unchanged" (R9). -/
def writeBit (w : Word) (k : Nat) (b : Bool) : Word :=
  if b then w ||| (1#32 <<< k) else w &&& ~~~(1#32 <<< k)

/-- `X{n} <- b` (R9). -/
def setLineBit (x : Banks) (n : Line) (b : Bool) : Banks :=
  x.set (bankOf n).toNat (writeBit (bankWord x (bankOf n)) (posOf n) b) (bankOf n).isLt

/-! ### The per-line control byte (`10_state.md` R26; the positions are D7, log 6) -/

/-- `INTCTL_ENABLE_BIT`. -/
def intctlEnableBit : Nat := 2

/-- `INTCTL_SOFTIRQ_BIT`. -/
def intctlSoftirqBit : Nat := 3

/-- `INTCTL_ENFIQ_BIT`. -/
def intctlEnfiqBit : Nat := 4

/-- `INTCTL[n]`. -/
def intctlByte (x : Vector Byte 128) (n : Line) : Byte := x[n.toNat]'n.isLt

/-- `INTCTL[n] <- v`. -/
def setIntctlByte (x : Vector Byte 128) (n : Line) (v : Byte) : Vector Byte 128 :=
  x.set n.toNat v n.isLt

/-- The byte that is stored: "mask off the softirq bit from the value actually stored"
(`42_register_access.md` R134). -/
def withoutSoftirq (newb : Byte) : Byte := newb &&& ~~~(1#8 <<< intctlSoftirqBit)

/-! ### The control register (`10_state.md` R32) -/

/-- `CTRL_EDGE_BIT`. -/
def ctrlEdgeBit : Nat := 31

/-- `CTRL_COMPANION_BIT` (D8, log 6). -/
def ctrlCompanionBit : Nat := 30

/-- `ctrl_edge = (prev[31] = 0 and new[31] = 1)`, the named condition of `42_register_access.md` R136. -/
def ctrlEdge (prev new : Word) : Bool := !prev.getLsbD ctrlEdgeBit && new.getLsbD ctrlEdgeBit

/-- The control word a write stores: the companion bit is forced on the edge, after RAP (R131). -/
def forceCompanion (prev new : Word) : Word :=
  if ctrlEdge prev new then new ||| (1#32 <<< ctrlCompanionBit) else new

/-! ### The vector (`10_state.md` R30, D6, log 9) -/

/-- `VEC_NONE`, "no active vector", all ones in the 7-bit field, in a whole VECTOR word. -/
def vecNone : Word := 0x7F

/-- VECNUM, `VECTOR[6:0]`: "the currently selected vector, 0..127". -/
def vecnum (vector : Word) : Line := vector.extractLsb' 0 7

end Sys2Proof.Machine
end

