-- ==== Sys2Proof/WellFormed.lean ====
section
/-! DEFINITION. Which terms of `Instr` are operations of the spec. The lanes need no check: `Lanes` holds the
legal pairs of width and lane only (`30_encoding.md` R77). -/

namespace Sys2Proof

/-- No register claims the unit: it is one of 3, 8, 9, 0xE..0x11 or at least 0x92 (`30_encoding.md` R84). -/
def UnitNo.undefined (u : UnitNo) : Bool :=
  u.toNat == 3 || u.toNat == 8 || u.toNat == 9 || (0xE ≤ u.toNat && u.toNat ≤ 0x11) || 0x92 ≤ u.toNat

/-- The check of a term. The out-of-range rows carry an undefined unit (R84); RAP's operands are those of
`40_rap.md` R96 in this block: `sel` in 0..3 and `opnd & ~mask = 0`. -/
def Instr.wellFormed : Instr → Bool
  | .rdVector _ _ => true
  | .rdLevelack _ _ => true
  | .rdCtrl _ _ => true
  | .rdRaised _ _ _ => true
  | .rdRaw _ _ _ => true
  | .rdIntctl _ _ _ => true
  | .rdUndef u _ _ => UnitNo.undefined u
  | .wrVector _ _ _ => true
  | .wrLevelackDir _ _ => true
  | .wrLevelackSet _ _ => true
  | .wrLevelackClr _ _ => true
  | .wrLevelackTog _ _ => true
  | .wrCtrlDir _ _ => true
  | .wrCtrlSet _ _ => true
  | .wrCtrlClr _ _ => true
  | .wrCtrlTog _ _ => true
  | .wrRaised _ _ _ _ => true
  | .wrRaw _ _ _ _ => true
  | .wrIntctlDir _ _ _ => true
  | .wrIntctlSet _ _ _ => true
  | .wrIntctlClr _ _ _ => true
  | .wrIntctlTog _ _ _ => true
  | .wrUndef u _ _ _ => UnitNo.undefined u
  | .lineAssert _ => true
  | .lineDeassert _ => true
  | .reset => true
  | .rap _ sel mask opnd => decide (sel < 4) && (opnd &&& ~~~mask == 0)
  | .arbitrate => true

end Sys2Proof
end

