-- ==== Sys2Proof/Decode.lean ====
section
/-! DEFINITION. From a port event to an operation and back (`30_encoding.md`). Decoding is total; what it
rejects, it rejects by name (R87). It reads the event only, so it is the same in every state (R88). -/

namespace Sys2Proof

/-! ### The fields of an offset (R76) -/

/-- `unit = off[31:4]`. -/
def unitOf (off : Word) : UnitNo := off.extractLsb' 4 28

/-- `sel = off[3:2]`. -/
def selOf (off : Word) : Sel := off.extractLsb' 2 2

/-- `lane = off[1:0]`. -/
def laneOf (off : Word) : BitVec 2 := off.extractLsb' 0 2

/-- The offset with the given fields: `unit ++ sel ++ lane`. -/
def mkOff (unit : UnitNo) (sel : Sel) (lane : BitVec 2) : Word := unit ++ sel ++ lane

/-- The width in bits of an access that covers these lanes (R77). -/
def Lanes.width : Lanes → Nat
  | .byte _ => 8
  | .half _ => 16
  | .word => 32

/-- The first lane covered (R76, R77). -/
def Lanes.lane : Lanes → BitVec 2
  | .byte b => b
  | .half false => 0
  | .half true => 2
  | .word => 0

/-- The lanes of a transaction of this width at this offset, or why it has none (R77, R87; `20_memory.md`
R52, R54). -/
def lanesOf (off : Word) (width : Nat) : Except DecodeError Lanes :=
  if width = 8 then .ok (.byte (laneOf off))
  else if width = 16 then
    if laneOf off = 0 then .ok (.half false)
    else if laneOf off = 2 then .ok (.half true)
    else .error (.misaligned off width)
  else if width = 32 then
    if laneOf off = 0 then .ok .word else .error (.misaligned off width)
  else .error (.malformedWidth width)

/-! ### The operation map (R80, R81, R83) -/

/-- Unit to register, over the whole unit field (R80, D28). -/
def regOf (unit : UnitNo) : Reg :=
  let u := unit.toNat
  if u = 0x0 then .vector
  else if u = 0x1 then .levelack
  else if u = 0x2 then .ctrl
  else if 0x4 ≤ u ∧ u ≤ 0x7 then .raised (BitVec.ofNat 2 (u - 0x4))
  else if 0xA ≤ u ∧ u ≤ 0xD then .raw (BitVec.ofNat 2 (u - 0xA))
  else if 0x12 ≤ u ∧ u ≤ 0x91 then .intctl (BitVec.ofNat 7 (u - 0x12))
  else .undef

/-- The operation that the selector names among an alias group's four (R81). -/
def bySel (sel : Sel) (dir set clr tog : Instr) : Instr :=
  if sel = 0 then dir else if sel = 1 then set else if sel = 2 then clr else tog

/-- The read operation at an offset; the selector is decoded and has no effect (R82). -/
def decodeRead (off : Word) (lanes : Lanes) : Instr :=
  match regOf (unitOf off) with
  | .vector => .rdVector (selOf off) lanes
  | .levelack => .rdLevelack (selOf off) lanes
  | .ctrl => .rdCtrl (selOf off) lanes
  | .raised b => .rdRaised b (selOf off) lanes
  | .raw b => .rdRaw b (selOf off) lanes
  | .intctl n => .rdIntctl n (selOf off) lanes
  | .undef => .rdUndef (unitOf off) (selOf off) lanes

/-- The write operation at an offset (R83). -/
def decodeWrite (off : Word) (lanes : Lanes) (data : Word) : Instr :=
  match regOf (unitOf off) with
  | .vector => .wrVector (selOf off) lanes data
  | .levelack => bySel (selOf off) (.wrLevelackDir lanes data) (.wrLevelackSet lanes data)
      (.wrLevelackClr lanes data) (.wrLevelackTog lanes data)
  | .ctrl => bySel (selOf off) (.wrCtrlDir lanes data) (.wrCtrlSet lanes data)
      (.wrCtrlClr lanes data) (.wrCtrlTog lanes data)
  | .raised b => .wrRaised b (selOf off) lanes data
  | .raw b => .wrRaw b (selOf off) lanes data
  | .intctl n => bySel (selOf off) (.wrIntctlDir n lanes data) (.wrIntctlSet n lanes data)
      (.wrIntctlClr n lanes data) (.wrIntctlTog n lanes data)
  | .undef => .wrUndef (unitOf off) (selOf off) lanes data

/-- The operation a port event selects, or why it has none (R75, R83, R87). -/
def decode : PortEvent → Except DecodeError Instr
  | .bw off width data => (lanesOf off width).map fun lanes => decodeWrite off lanes data
  | .br off width => (lanesOf off width).map fun lanes => decodeRead off lanes
  | .ln n true => .ok (.lineAssert n)
  | .ln n false => .ok (.lineDeassert n)
  | .rs => .ok .reset

/-! ### The encoder, from the same tables (`10_state.md` R29, R76, R81) -/

/-- The unit of RAISED`b` (R29). -/
def raisedUnit (b : Bank) : UnitNo := BitVec.ofNat 28 (0x4 + b.toNat)

/-- The unit of RAW`b` (R29). -/
def rawUnit (b : Bank) : UnitNo := BitVec.ofNat 28 (0xA + b.toNat)

/-- The unit of INTCTL`n` (R29). -/
def intctlUnit (n : Line) : UnitNo := BitVec.ofNat 28 (0x12 + n.toNat)

/-- The bus read of these fields. -/
def brEvent (unit : UnitNo) (sel : Sel) (lanes : Lanes) : PortEvent :=
  .br (mkOff unit sel lanes.lane) lanes.width

/-- The bus write of these fields. -/
def bwEvent (unit : UnitNo) (sel : Sel) (lanes : Lanes) (data : Word) : PortEvent :=
  .bw (mkOff unit sel lanes.lane) lanes.width data

/-- The port event of an operation; none for the two internal functions, which "have rules but no
encoding" (R83). -/
def encode : Instr → Option PortEvent
  | .rdVector sel l => some (brEvent 0x0 sel l)
  | .rdLevelack sel l => some (brEvent 0x1 sel l)
  | .rdCtrl sel l => some (brEvent 0x2 sel l)
  | .rdRaised b sel l => some (brEvent (raisedUnit b) sel l)
  | .rdRaw b sel l => some (brEvent (rawUnit b) sel l)
  | .rdIntctl n sel l => some (brEvent (intctlUnit n) sel l)
  | .rdUndef u sel l => some (brEvent u sel l)
  | .wrVector sel l d => some (bwEvent 0x0 sel l d)
  | .wrLevelackDir l d => some (bwEvent 0x1 0 l d)
  | .wrLevelackSet l d => some (bwEvent 0x1 1 l d)
  | .wrLevelackClr l d => some (bwEvent 0x1 2 l d)
  | .wrLevelackTog l d => some (bwEvent 0x1 3 l d)
  | .wrCtrlDir l d => some (bwEvent 0x2 0 l d)
  | .wrCtrlSet l d => some (bwEvent 0x2 1 l d)
  | .wrCtrlClr l d => some (bwEvent 0x2 2 l d)
  | .wrCtrlTog l d => some (bwEvent 0x2 3 l d)
  | .wrRaised b sel l d => some (bwEvent (raisedUnit b) sel l d)
  | .wrRaw b sel l d => some (bwEvent (rawUnit b) sel l d)
  | .wrIntctlDir n l d => some (bwEvent (intctlUnit n) 0 l d)
  | .wrIntctlSet n l d => some (bwEvent (intctlUnit n) 1 l d)
  | .wrIntctlClr n l d => some (bwEvent (intctlUnit n) 2 l d)
  | .wrIntctlTog n l d => some (bwEvent (intctlUnit n) 3 l d)
  | .wrUndef u sel l d => some (bwEvent u sel l d)
  | .lineAssert n => some (.ln n true)
  | .lineDeassert n => some (.ln n false)
  | .reset => some .rs
  | .rap _ _ _ _ => none
  | .arbitrate => none

/-! ### The opcode table's own form (R91): mask and match over the offset -/

/-- One row of format BR or BW of `opcode_table.json`: its mnemonic and its (mask, match) blocks. -/
structure TableRow where
  mnemonic : String
  blocks : List (Word × Word)
deriving DecidableEq, Repr

/-- "a transaction selects the row when ... `(off & mask) == match` for the row or for one of the pairs in
the row's `blocks` list" (R91). -/
def TableRow.selects (row : TableRow) (off : Word) : Bool :=
  row.blocks.any fun b => off &&& b.1 == b.2

/-- The BR rows with a block, in the table's order. -/
def brRows : List TableRow := [
  ⟨"RD.VECTOR",
    [(0xFFFFFFF0, 0x00000000)]⟩,
  ⟨"RD.LEVELACK",
    [(0xFFFFFFF0, 0x00000010)]⟩,
  ⟨"RD.CTRL",
    [(0xFFFFFFF0, 0x00000020)]⟩,
  ⟨"RD.RAISED",
    [(0xFFFFFFC0, 0x00000040)]⟩,
  ⟨"RD.RAW",
    [(0xFFFFFFE0, 0x000000A0), (0xFFFFFFE0, 0x000000C0)]⟩,
  ⟨"RD.INTCTL",
    [(0xFFFFFFE0, 0x00000120), (0xFFFFFFC0, 0x00000140), (0xFFFFFF80, 0x00000180),
     (0xFFFFFE00, 0x00000200), (0xFFFFFC00, 0x00000400), (0xFFFFFF00, 0x00000800),
     (0xFFFFFFE0, 0x00000900)]⟩]

/-- The BW rows with a block, in the table's order. -/
def bwRows : List TableRow := [
  ⟨"WR.VECTOR",
    [(0xFFFFFFF0, 0x00000000)]⟩,
  ⟨"WR.LEVELACK.DIR",
    [(0xFFFFFFFC, 0x00000010)]⟩,
  ⟨"WR.LEVELACK.SET",
    [(0xFFFFFFFC, 0x00000014)]⟩,
  ⟨"WR.LEVELACK.CLR",
    [(0xFFFFFFFC, 0x00000018)]⟩,
  ⟨"WR.LEVELACK.TOG",
    [(0xFFFFFFFC, 0x0000001C)]⟩,
  ⟨"WR.CTRL.DIR",
    [(0xFFFFFFFC, 0x00000020)]⟩,
  ⟨"WR.CTRL.SET",
    [(0xFFFFFFFC, 0x00000024)]⟩,
  ⟨"WR.CTRL.CLR",
    [(0xFFFFFFFC, 0x00000028)]⟩,
  ⟨"WR.CTRL.TOG",
    [(0xFFFFFFFC, 0x0000002C)]⟩,
  ⟨"WR.RAISED",
    [(0xFFFFFFC0, 0x00000040)]⟩,
  ⟨"WR.RAW",
    [(0xFFFFFFE0, 0x000000A0), (0xFFFFFFE0, 0x000000C0)]⟩,
  ⟨"WR.INTCTL.DIR",
    [(0xFFFFFFEC, 0x00000120), (0xFFFFFFCC, 0x00000140), (0xFFFFFF8C, 0x00000180),
     (0xFFFFFE0C, 0x00000200), (0xFFFFFC0C, 0x00000400), (0xFFFFFF0C, 0x00000800),
     (0xFFFFFFEC, 0x00000900)]⟩,
  ⟨"WR.INTCTL.SET",
    [(0xFFFFFFEC, 0x00000124), (0xFFFFFFCC, 0x00000144), (0xFFFFFF8C, 0x00000184),
     (0xFFFFFE0C, 0x00000204), (0xFFFFFC0C, 0x00000404), (0xFFFFFF0C, 0x00000804),
     (0xFFFFFFEC, 0x00000904)]⟩,
  ⟨"WR.INTCTL.CLR",
    [(0xFFFFFFEC, 0x00000128), (0xFFFFFFCC, 0x00000148), (0xFFFFFF8C, 0x00000188),
     (0xFFFFFE0C, 0x00000208), (0xFFFFFC0C, 0x00000408), (0xFFFFFF0C, 0x00000808),
     (0xFFFFFFEC, 0x00000908)]⟩,
  ⟨"WR.INTCTL.TOG",
    [(0xFFFFFFEC, 0x0000012C), (0xFFFFFFCC, 0x0000014C), (0xFFFFFF8C, 0x0000018C),
     (0xFFFFFE0C, 0x0000020C), (0xFFFFFC0C, 0x0000040C), (0xFFFFFF0C, 0x0000080C),
     (0xFFFFFFEC, 0x0000090C)]⟩]

/-- The mnemonic that the rows give an offset; the default row "match[es] when no other row of the same
format does" (R91). -/
def tableMnemonic (rows : List TableRow) (default : String) (off : Word) : String :=
  match rows.find? (·.selects off) with
  | some row => row.mnemonic
  | none => default

/-! ### Words for the host's questions

The table gives a BR or BW row bits of `off` only, an LN row the bits of `n ++ level`, the RS row none. The
layout of the rest is the model's (DESIGN CHOICE, log 2): a bus transaction is the number whose bits 31:0 are
`off`, 63:32 `data`, 65:64 the width code (0, 1, 2 for 8, 16, 32 bits) and 66 the direction (0 write, 1 read). -/

/-- The bus transaction of a record number (log 2). -/
def busRecord (w : Nat) : PortEvent :=
  let off := BitVec.ofNat 32 w
  let width := 8 * 2 ^ (w / 2 ^ 64 % 4)
  if w / 2 ^ 66 % 2 = 0 then .bw off width (BitVec.ofNat 32 (w / 2 ^ 32)) else .br off width

/-- The port event whose bits are `w`, given in `nbits` bits: none at all for RS, up to 8 for `n ++ level`
(R91), up to 72 for a bus transaction. -/
def tableEvent (nbits w : Nat) : Option PortEvent :=
  if nbits = 0 then some .rs
  else if nbits ≤ 8 then some (.ln (BitVec.ofNat 7 (w / 2)) (w % 2 == 1))
  else if nbits ≤ 72 then some (busRecord w)
  else none

/-- The instruction the decoder reads from a table word. -/
def decodeTableWord (nbits w : Nat) : Option Instr :=
  match tableEvent nbits w with
  | some e => (decode e).toOption
  | none => none

end Sys2Proof
end

