-- ==== Sys2Proof/Machine/Operands.lean ====
section
/-! DEFINITION. The operand forms: the mask and operand of a bus write and the lanes of a bus read
(`20_memory.md` R53 to R56). -/

namespace Sys2Proof.Machine

/-- How far lane `b`'s bits lie above bit 0: `8 * b` (R53, little-endian, D3). -/
def laneShift (lanes : Lanes) : Nat := 8 * lanes.lane.toNat

/-- `mask = zext_32((1 << w) - 1) << (8 * b)` (R55). -/
def laneMask (lanes : Lanes) : Word :=
  (BitVec.allOnes lanes.width).setWidth 32 <<< laneShift lanes

/-- `opnd = zext_32(data[w-1:0]) << (8 * b)` (R55; the datum is right-justified, D4). -/
def laneOpnd (lanes : Lanes) (data : Word) : Word :=
  (data.setWidth lanes.width).setWidth 32 <<< laneShift lanes

/-- `(r >> (8 * off[1:0]))[w-1:0]`, zero-extended to 32 bits (R50, R56, D11). -/
def laneRead (lanes : Lanes) (r : Word) : Word :=
  ((r >>> laneShift lanes).setWidth lanes.width).setWidth 32

end Sys2Proof.Machine
end

