-- ==== Sys2Proof/Machine/Ops.lean ====
section
/-! DEFINITION. The shared operations: RAP (`40_rap.md`), arbitration (`44_arbitration.md`), the writes of
each register, the completion of a transaction, the out-of-range diagnostic (`60_exceptions.md` R186; the
block takes no other exception), and taking the next event from the ports. -/

namespace Sys2Proof.Machine

/-! ### RAP (`40_rap.md` R96) -/

/-- `RAP(old, sel, mask, opnd) -> (prev, new)`: SET, CLR, TOG, and DIRECT for 0 and for every other
selector (R97 to R101). -/
def rap (old : Word) (sel : Nat) (mask opnd : Word) : Word × Word :=
  let v := opnd &&& mask
  match sel with
  | 1 => (old, old ||| v)
  | 2 => (old, old &&& ~~~v)
  | 3 => (old, old ^^^ v)
  | _ => (old, (old &&& ~~~mask) ||| v)

/-! ### Arbitration (`44_arbitration.md` R166) -/

/-- The index of the least significant 1 bit of a bank word, if it has one. -/
def lowestSet (c : Word) : Option Nat := (List.range 32).find? fun k => c.getLsbD k

/-- One pass: the banks in increasing order, and in the first with a candidate its lowest bit, as a global
index `32 * b + k`. -/
def scan (raised enabled : Banks) : Option Nat :=
  [0#2, 1#2, 2#2, 3#2].findSome? fun b =>
    (lowestSet (bankWord raised b &&& bankWord enabled b)).map (32 * b.toNat + ·)

/-- `Arbitrate()`: the FIQ pass, then, only if it finds no candidate anywhere, the IRQ pass; both outputs are
driven every time (D12), and with no candidate VECTOR is left alone. -/
def arbitrate (c : Collector) : Collector :=
  match scan c.raised c.fiqen with
  | some n => { c with vector := BitVec.ofNat 32 n, fiqOut := true, irqOut := false }
  | none =>
    match scan c.raised c.irqen with
    | some n => { c with vector := BitVec.ofNat 32 n, irqOut := true, fiqOut := false }
    | none => { c with irqOut := false, fiqOut := false }

/-! ### What each event does to the collector -/

/-- `SetLine(n, level)` (`41_line_latch.md` R110). -/
def setLine (c : Collector) (n : Line) (level : Bool) : Collector :=
  arbitrate { c with raised := setLineBit c.raised n level }

/-- `WriteLevelAck(sel, mask, opnd)` (`43_acknowledge.md` R151): the storage update, then the acknowledge of
whatever VECNUM holds, sentinel and stale index included (R154, R155). -/
def writeLevelAck (c : Collector) (sel : Nat) (mask opnd : Word) : Collector :=
  { c with
    levelack := (rap c.levelack sel mask opnd).2
    raised := setLineBit c.raised (vecnum c.vector) false
    vector := vecNone }

/-- `WriteCtrl(sel, mask, opnd)` (`42_register_access.md` R131). -/
def writeCtrl (c : Collector) (sel : Nat) (mask opnd : Word) : Collector :=
  let r := rap c.ctrl sel mask opnd
  { c with ctrl := forceCompanion r.1 r.2 }

/-- `WriteIntCtl(n, sel, mask, opnd)` (`42_register_access.md` R134): the enables come from the new value, the
injection from the incoming operand (D14, log 14). -/
def writeIntCtl (c : Collector) (n : Line) (sel : Nat) (mask opnd : Word) : Collector :=
  let newb : Byte := (rap ((intctlByte c.intctl n).setWidth 32) sel mask opnd).2.setWidth 8
  { c with
    intctl := setIntctlByte c.intctl n (withoutSoftirq newb)
    irqen := setLineBit c.irqen n (newb.getLsbD intctlEnableBit)
    fiqen := setLineBit c.fiqen n (newb.getLsbD intctlEnfiqBit)
    raised := if opnd.getLsbD intctlSoftirqBit then setLineBit c.raised n true else c.raised }

/-! ### Completing an operation -/

/-- The outcome of any operation. -/
abbrev Result := Host.Outcome State Fault Refusal

/-- A state with another collector. -/
def State.withIcoll (s : State) (c : Collector) : State := { s with icoll := c }

/-- A state with another response. -/
def State.respond (s : State) (r : Response) : State := { s with response := r }

/-- `raise Diag(dir, off)`: one event on port DIAG, which "does not stop the operation that raises it"
(`00_scope.md` R10, `60_exceptions.md` R186). -/
def State.raiseDiag (s : State) (dir : Dir) (off : Word) : State :=
  { s with diags := s.diags ++ [⟨dir, off⟩] }

/-- The end of `BusRead` of a register that holds `r`: the addressed lanes, and no state changes
(`42_register_access.md` R120, `20_memory.md` R56, R59). -/
def completeRead (s : State) (lanes : Lanes) (r : Word) : Result :=
  .next (s.respond (.readData (laneRead lanes r)))

/-- The end of `BusWrite` whose handler leaves the collector `c`: every bus write ends with `Arbitrate()`
(R121, R138), and hands nothing back. -/
def completeWrite (s : State) (c : Collector) : Result :=
  .next ((s.withIcoll (arbitrate c)).respond .nothing)

/-- The end of an event that leaves the collector `c` and hands nothing back. -/
def completeEvent (s : State) (c : Collector) : Result :=
  .next ((s.withIcoll c).respond .nothing)

/-! ### Taking an event from the ports -/

/-- The next event and the state that has taken it: one at a time, in order (`20_memory.md` R66, R67). -/
def State.fetch (s : State) : Option (PortEvent × State) :=
  match s.input with
  | [] => none
  | e :: rest => some (e, { s with input := rest })

/-- The refusal of an event that does not decode (`30_encoding.md` R87). -/
def refusalOf : DecodeError → Refusal
  | .malformedWidth w => .malformedWidth w
  | .misaligned off w => .misaligned off w

/-- The event placed where the next step takes it (log 2). -/
def State.withEvent (s : State) (e : PortEvent) : State := { s with input := e :: s.input }

end Sys2Proof.Machine
end

