-- ==== Sys2Proof/Machine/Acknowledge.lean ====
section
/-! DEFINITION. The level-acknowledge writes (`43_acknowledge.md`): any write to unit 1 acknowledges once,
whatever its value, selector, width and lane (R152). -/

namespace Sys2Proof.Machine

/-- WR.LEVELACK.DIR (`43_acknowledge.md` R151, `40_rap.md` R97). -/
def execWrLevelackDir (lanes : Lanes) (data : Word) (s : State) : Result :=
  completeWrite s (writeLevelAck s.icoll 0 (laneMask lanes) (laneOpnd lanes data))

/-- WR.LEVELACK.SET (`43_acknowledge.md` R151, `40_rap.md` R98). -/
def execWrLevelackSet (lanes : Lanes) (data : Word) (s : State) : Result :=
  completeWrite s (writeLevelAck s.icoll 1 (laneMask lanes) (laneOpnd lanes data))

/-- WR.LEVELACK.CLR (`43_acknowledge.md` R151, `40_rap.md` R99). -/
def execWrLevelackClr (lanes : Lanes) (data : Word) (s : State) : Result :=
  completeWrite s (writeLevelAck s.icoll 2 (laneMask lanes) (laneOpnd lanes data))

/-- WR.LEVELACK.TOG (`43_acknowledge.md` R151, `40_rap.md` R100). -/
def execWrLevelackTog (lanes : Lanes) (data : Word) (s : State) : Result :=
  completeWrite s (writeLevelAck s.icoll 3 (laneMask lanes) (laneOpnd lanes data))

end Sys2Proof.Machine
end

