-- ==== Sys2Proof/Machine/Control.lean ====
section
/-! DEFINITION. The control register writes (`42_register_access.md` section 4). -/

namespace Sys2Proof.Machine

/-- WR.CTRL.DIR (`42_register_access.md` R131, `40_rap.md` R97). -/
def execWrCtrlDir (lanes : Lanes) (data : Word) (s : State) : Result :=
  completeWrite s (writeCtrl s.icoll 0 (laneMask lanes) (laneOpnd lanes data))

/-- WR.CTRL.SET (`42_register_access.md` R131, `40_rap.md` R98). -/
def execWrCtrlSet (lanes : Lanes) (data : Word) (s : State) : Result :=
  completeWrite s (writeCtrl s.icoll 1 (laneMask lanes) (laneOpnd lanes data))

/-- WR.CTRL.CLR (`42_register_access.md` R131, `40_rap.md` R99). -/
def execWrCtrlClr (lanes : Lanes) (data : Word) (s : State) : Result :=
  completeWrite s (writeCtrl s.icoll 2 (laneMask lanes) (laneOpnd lanes data))

/-- WR.CTRL.TOG (`42_register_access.md` R131, `40_rap.md` R100). -/
def execWrCtrlTog (lanes : Lanes) (data : Word) (s : State) : Result :=
  completeWrite s (writeCtrl s.icoll 3 (laneMask lanes) (laneOpnd lanes data))

end Sys2Proof.Machine
end

