-- ==== Sys2Proof/Machine/DiscardedWrite.lean ====
section
/-! DEFINITION. The bus writes that are discarded (`42_register_access.md` section 3). Each still ends with
the `Arbitrate()` of R121, which changes nothing in a reachable state (R138, log 27). -/

namespace Sys2Proof.Machine

/-- WR.VECTOR (R129, D10). -/
def execWrVector (_sel : Sel) (_lanes : Lanes) (_data : Word) (s : State) : Result :=
  completeWrite s s.icoll

/-- WR.RAISED (R132, D10). -/
def execWrRaised (_bank : Bank) (_sel : Sel) (_lanes : Lanes) (_data : Word) (s : State) : Result :=
  completeWrite s s.icoll

/-- WR.RAW (R133, D10). -/
def execWrRaw (_bank : Bank) (_sel : Sel) (_lanes : Lanes) (_data : Word) (s : State) : Result :=
  completeWrite s s.icoll

/-- WR.UNDEF (R135): dropped, with `Diag(W, off)`. -/
def execWrUndef (unit : UnitNo) (sel : Sel) (lanes : Lanes) (_data : Word) (s : State) : Result :=
  let d := s.raiseDiag .write (mkOff unit sel lanes.lane)
  completeWrite d d.icoll

end Sys2Proof.Machine
end

