-- ==== Sys2Proof/Machine/Internal.lean ====
section
/-! DEFINITION. The two internal functions as operations of their own (`30_encoding.md` R83, log 23): no port
event decodes to them. -/

namespace Sys2Proof.Machine

/-- RAP (`40_rap.md` R96, R104): hands back its pair and touches no state. -/
def execRap (old : Word) (sel : Nat) (mask opnd : Word) (s : State) : Result :=
  .next (s.respond (.rapPair (rap old sel mask opnd).1 (rap old sel mask opnd).2))

/-- ARBITRATE (`44_arbitration.md` R166). -/
def execArbitrate (s : State) : Result := completeEvent s (arbitrate s.icoll)

end Sys2Proof.Machine
end

