-- ==== Sys2Proof/Machine/LineControl.lean ====
section
/-! DEFINITION. The per-line control writes (`42_register_access.md` section 5). -/

namespace Sys2Proof.Machine

/-- WR.INTCTL.DIR (`42_register_access.md` R134, `40_rap.md` R97). -/
def execWrIntctlDir (line : Line) (lanes : Lanes) (data : Word) (s : State) : Result :=
  completeWrite s (writeIntCtl s.icoll line 0 (laneMask lanes) (laneOpnd lanes data))

/-- WR.INTCTL.SET (`42_register_access.md` R134, `40_rap.md` R98). -/
def execWrIntctlSet (line : Line) (lanes : Lanes) (data : Word) (s : State) : Result :=
  completeWrite s (writeIntCtl s.icoll line 1 (laneMask lanes) (laneOpnd lanes data))

/-- WR.INTCTL.CLR (`42_register_access.md` R134, `40_rap.md` R99). -/
def execWrIntctlClr (line : Line) (lanes : Lanes) (data : Word) (s : State) : Result :=
  completeWrite s (writeIntCtl s.icoll line 2 (laneMask lanes) (laneOpnd lanes data))

/-- WR.INTCTL.TOG (`42_register_access.md` R134, `40_rap.md` R100). -/
def execWrIntctlTog (line : Line) (lanes : Lanes) (data : Word) (s : State) : Result :=
  completeWrite s (writeIntCtl s.icoll line 3 (laneMask lanes) (laneOpnd lanes data))

end Sys2Proof.Machine
end

