-- ==== Sys2Proof/Machine/LineLatch.lean ====
section
/-! DEFINITION. The line events (`41_line_latch.md`). -/

namespace Sys2Proof.Machine

/-- LINE.ASSERT (R111). -/
def execLineAssert (line : Line) (s : State) : Result := completeEvent s (setLine s.icoll line true)

/-- LINE.DEASSERT (R112). -/
def execLineDeassert (line : Line) (s : State) : Result := completeEvent s (setLine s.icoll line false)

end Sys2Proof.Machine
end

