-- ==== Sys2Proof/Machine/RegisterRead.lean ====
section
/-! DEFINITION. The seven bus reads (`42_register_access.md` section 2). The selector is ignored
(`30_encoding.md` R82). -/

namespace Sys2Proof.Machine

/-- RD.VECTOR (R122). -/
def execRdVector (_sel : Sel) (lanes : Lanes) (s : State) : Result :=
  completeRead s lanes s.icoll.vector

/-- RD.LEVELACK (R123): the storage word; a read does not acknowledge. -/
def execRdLevelack (_sel : Sel) (lanes : Lanes) (s : State) : Result :=
  completeRead s lanes s.icoll.levelack

/-- RD.CTRL (R124). -/
def execRdCtrl (_sel : Sel) (lanes : Lanes) (s : State) : Result :=
  completeRead s lanes s.icoll.ctrl

/-- RD.RAISED (R125): the live pending word of the bank. -/
def execRdRaised (bank : Bank) (_sel : Sel) (lanes : Lanes) (s : State) : Result :=
  completeRead s lanes (bankWord s.icoll.raised bank)

/-- RD.RAW (R126): identical to RD.RAISED of the same bank. -/
def execRdRaw (bank : Bank) (_sel : Sel) (lanes : Lanes) (s : State) : Result :=
  completeRead s lanes (bankWord s.icoll.raised bank)

/-- RD.INTCTL (R127): `zext_32(INTCTL[n])`. -/
def execRdIntctl (line : Line) (_sel : Sel) (lanes : Lanes) (s : State) : Result :=
  completeRead s lanes ((intctlByte s.icoll.intctl line).setWidth 32)

/-- RD.UNDEF (R128): 0, with `Diag(R, off)`. -/
def execRdUndef (unit : UnitNo) (sel : Sel) (lanes : Lanes) (s : State) : Result :=
  .next ((s.raiseDiag .read (mkOff unit sel lanes.lane)).respond (.readData 0))

end Sys2Proof.Machine
end

