-- ==== Sys2Proof/Machine/Reset.lean ====
section
/-! DEFINITION. The reset event (`70_reset_and_hazards.md`). -/

namespace Sys2Proof.Machine

/-- RESET (R210): "Every element of `10_state.md` rule R20 is written; nothing keeps a value across reset."
The events still to come and the diagnostics already emitted are outside the collector and stay (log 4). -/
def execReset (s : State) : Result := completeEvent s Collector.reset

end Sys2Proof.Machine
end

