-- ==== Sys2Proof/Machine/Dispatch.lean ====
section
/-! DEFINITION. One arm per operation, each one call of its meaning. -/

namespace Sys2Proof.Machine

def exec (i : Instr) (s : State) : Host.Outcome State Fault Refusal :=
  match i with
  | .rdVector sel l => Sys2Proof.Machine.execRdVector sel l s
  | .rdLevelack sel l => Sys2Proof.Machine.execRdLevelack sel l s
  | .rdCtrl sel l => Sys2Proof.Machine.execRdCtrl sel l s
  | .rdRaised b sel l => Sys2Proof.Machine.execRdRaised b sel l s
  | .rdRaw b sel l => Sys2Proof.Machine.execRdRaw b sel l s
  | .rdIntctl n sel l => Sys2Proof.Machine.execRdIntctl n sel l s
  | .rdUndef u sel l => Sys2Proof.Machine.execRdUndef u sel l s
  | .wrVector sel l d => Sys2Proof.Machine.execWrVector sel l d s
  | .wrLevelackDir l d => Sys2Proof.Machine.execWrLevelackDir l d s
  | .wrLevelackSet l d => Sys2Proof.Machine.execWrLevelackSet l d s
  | .wrLevelackClr l d => Sys2Proof.Machine.execWrLevelackClr l d s
  | .wrLevelackTog l d => Sys2Proof.Machine.execWrLevelackTog l d s
  | .wrCtrlDir l d => Sys2Proof.Machine.execWrCtrlDir l d s
  | .wrCtrlSet l d => Sys2Proof.Machine.execWrCtrlSet l d s
  | .wrCtrlClr l d => Sys2Proof.Machine.execWrCtrlClr l d s
  | .wrCtrlTog l d => Sys2Proof.Machine.execWrCtrlTog l d s
  | .wrRaised b sel l d => Sys2Proof.Machine.execWrRaised b sel l d s
  | .wrRaw b sel l d => Sys2Proof.Machine.execWrRaw b sel l d s
  | .wrIntctlDir n l d => Sys2Proof.Machine.execWrIntctlDir n l d s
  | .wrIntctlSet n l d => Sys2Proof.Machine.execWrIntctlSet n l d s
  | .wrIntctlClr n l d => Sys2Proof.Machine.execWrIntctlClr n l d s
  | .wrIntctlTog n l d => Sys2Proof.Machine.execWrIntctlTog n l d s
  | .wrUndef u sel l d => Sys2Proof.Machine.execWrUndef u sel l d s
  | .lineAssert n => Sys2Proof.Machine.execLineAssert n s
  | .lineDeassert n => Sys2Proof.Machine.execLineDeassert n s
  | .reset => Sys2Proof.Machine.execReset s
  | .rap old sel mask opnd => Sys2Proof.Machine.execRap old sel mask opnd s
  | .arbitrate => Sys2Proof.Machine.execArbitrate s

end Sys2Proof.Machine
end

