-- ==== Sys2Proof/Machine/Step.lean ====
section
/-! DEFINITION. One step: one port event, processed whole (`20_memory.md` R66). -/

namespace Sys2Proof.Machine

/-- Take the next event, decode it, run it. "Between events the state does not change" (`00_scope.md` R12):
with no event waiting the state stays as it is (log 1). -/
def step (s : State) : Host.Outcome State Fault Refusal :=
  match s.fetch with
  | none => .next s
  | some (e, s') =>
    match decode e with
    | .ok i => exec i s'
    | .error err => .refused (refusalOf err)

/-- The state whose next event is the one these bits stand for (log 2); unchanged where they stand for none. -/
def State.withFetchWord (s : State) (nbits w : Nat) : State :=
  match tableEvent nbits w with
  | some e => s.withEvent e
  | none => s

end Sys2Proof.Machine
end

