-- ==== Sys2Proof/Config.lean ====
section
/-! DEFINITION. What the platform fixes and the spec leaves open (`00_scope.md` R6, `10_state.md` R45): the
place of the register window. The block's behaviour depends on neither value (D16). -/

namespace Sys2Proof

/-- `BASE` in units of 16 bytes: open, "aligned to 16" (`93_implementation_defined.md` section 3, log 16). -/
opaque Config.baseSlot : Nat

/-- How far `WINDOW_BYTES` exceeds its least value `0x920`: open (D16). 31 bits keep every offset of the
window inside the 32-bit `off` of `20_memory.md` R50 (log 16). -/
opaque Config.windowExtra : BitVec 31

/-- `BASE`, the SoC byte address of offset 0 (R6). -/
def Config.base : Nat := 16 * Config.baseSlot

/-- `WINDOW_BYTES`, at least `0x920` (R6). -/
def Config.windowBytes : Nat := 0x920 + Config.windowExtra.toNat

end Sys2Proof
end

