-- ==== Sys2Proof/Machine/Bus.lean ====
section
/-! DEFINITION. The CPU's view of the window (`00_scope.md` R10, `20_memory.md` R51) and the
pseudo-operations of `30_encoding.md` R90, as port events. -/

namespace Sys2Proof.Machine

/-- A CPU access at `addr` reaches the block when `BASE <= addr < BASE + WINDOW_BYTES` (R51). -/
def inWindow (addr : Nat) : Bool :=
  Config.base ≤ addr && addr < Config.base + Config.windowBytes

/-- `MemRead(addr, n)` is `BusRead(addr - BASE, 8n)`; outside the window it "never reaches the block" (R51,
R62). -/
def memRead (addr n : Nat) : Option PortEvent :=
  if inWindow addr then some (.br (BitVec.ofNat 32 (addr - Config.base)) (8 * n)) else none

/-- `MemWrite(addr, n, v)` is `BusWrite(addr - BASE, 8n, v)` (R51). -/
def memWrite (addr n : Nat) (v : Word) : Option PortEvent :=
  if inWindow addr then some (.bw (BitVec.ofNat 32 (addr - Config.base)) (8 * n) v) else none

/-! ### Pseudo-operations (R90) -/

/-- `INTCTL(n)`, the byte offset `0x120 + 0x10 * n`. -/
def intctlOff (n : Line) : Word := BitVec.ofNat 32 (0x120 + 0x10 * n.toNat)

/-- `ACK`. -/
def pseudoAck : PortEvent := .bw 0x010 32 0x1

/-- `GETVEC`. -/
def pseudoGetvec : PortEvent := .br 0x000 32

/-- `EN_IRQ n`. -/
def pseudoEnIrq (n : Line) : PortEvent := .bw (intctlOff n + 0x4) 8 0x04

/-- `DIS_IRQ n`. -/
def pseudoDisIrq (n : Line) : PortEvent := .bw (intctlOff n + 0x8) 8 0x04

/-- `EN_FIQ n`. -/
def pseudoEnFiq (n : Line) : PortEvent := .bw (intctlOff n + 0x4) 8 0x10

/-- `DIS_FIQ n`. -/
def pseudoDisFiq (n : Line) : PortEvent := .bw (intctlOff n + 0x8) 8 0x10

/-- `SOFTIRQ n`. -/
def pseudoSoftirq (n : Line) : PortEvent := .bw (intctlOff n + 0x4) 8 0x08

/-- `PENDING b`. -/
def pseudoPending (b : Bank) : PortEvent := .br (BitVec.ofNat 32 (0x040 + 0x10 * b.toNat)) 32

end Sys2Proof.Machine
end

