-- ==== Sys2Proof/Safety.lean ====
section
/-! DEFINITION. What holds of the collector in every state reachable from reset (`10_state.md` R43), the
service states (`43_acknowledge.md` R156), and the bitwise forms that the statements use. -/

namespace Sys2Proof.Machine

/-! ### Candidates (`00_scope.md` R13, `44_arbitration.md` R167) -/

/-- Line `n` is a FIQ candidate: raised and FIQ-enabled. -/
def Collector.FiqCandidate (c : Collector) (n : Line) : Prop :=
  lineBit c.raised n = true ∧ lineBit c.fiqen n = true

/-- Line `n` is an IRQ candidate: raised and IRQ-enabled. -/
def Collector.IrqCandidate (c : Collector) (n : Line) : Prop :=
  lineBit c.raised n = true ∧ lineBit c.irqen n = true

/-- `cand`: "some line is a FIQ or an IRQ candidate" (R156). -/
def Collector.HasCandidate (c : Collector) : Prop := ∃ n, c.FiqCandidate n ∨ c.IrqCandidate n

/-- `n` is the least line with the property. -/
def LeastLine (p : Line → Prop) (n : Line) : Prop := p n ∧ ∀ m, p m → n.toNat ≤ m.toNat

/-! ### The invariants of reachable states (`10_state.md` R43) -/

/-- INV1 to INV7 of R43. -/
structure Collector.Inv (c : Collector) : Prop where
  /-- INV1: the enables are copies of the control byte's bits 2 and 4. -/
  enables_match : ∀ n, lineBit c.irqen n = (intctlByte c.intctl n).getLsbD 2 ∧
    lineBit c.fiqen n = (intctlByte c.intctl n).getLsbD 4
  /-- INV2: the softirq bit is never stored. -/
  softirq_clear : ∀ n, (intctlByte c.intctl n).getLsbD 3 = false
  /-- INV3: `VECTOR[31:7] = 0`. -/
  vector_high_zero : ∀ k, 7 ≤ k → c.vector.getLsbD k = false
  /-- INV4, FIQ: the level says whether there is a FIQ candidate. -/
  fiq_iff : c.fiqOut = true ↔ ∃ n, c.FiqCandidate n
  /-- INV4, IRQ: the level says whether there is an IRQ candidate and no FIQ candidate. -/
  irq_iff : c.irqOut = true ↔ (¬ ∃ n, c.FiqCandidate n) ∧ ∃ n, c.IrqCandidate n
  /-- INV5: the outputs are never both 1. -/
  not_both : ¬ (c.irqOut = true ∧ c.fiqOut = true)
  /-- INV6, FIQ: VECNUM is the lowest-index FIQ candidate. -/
  fiq_vector : c.fiqOut = true → LeastLine c.FiqCandidate (vecnum c.vector)
  /-- INV6, IRQ: VECNUM is the lowest-index IRQ candidate. -/
  irq_vector : c.irqOut = true → LeastLine c.IrqCandidate (vecnum c.vector)
  /-- INV7: the state is a fixed point of arbitration. -/
  fixed_point : arbitrate c = c

/-! ### The service states (`43_acknowledge.md` R156) -/

/-- IDLE, ACTIVE(v), STALE(v). -/
inductive ServiceState where
  /-- Nothing selected. -/
  | idle
  /-- Line `v` is presented to the CPU. -/
  | active (v : Line)
  /-- The last winner's index remains, no candidate exists. -/
  | stale (v : Line)
deriving DecidableEq, Repr

/-- The service state, from the outputs and VECNUM. -/
def Collector.service (c : Collector) : ServiceState :=
  if c.irqOut || c.fiqOut then .active (vecnum c.vector)
  else if vecnum c.vector = 0x7F then .idle
  else .stale (vecnum c.vector)

/-! ### The alias groups: four operations that differ in the selector only (`30_encoding.md` R81, R83) -/

/-- WR.LEVELACK.DIR, .SET, .CLR, .TOG for `sel` 0, 1, 2, 3. -/
def ackWrite (sel : Sel) (l : Lanes) (d : Word) : Instr :=
  bySel sel (.wrLevelackDir l d) (.wrLevelackSet l d) (.wrLevelackClr l d) (.wrLevelackTog l d)

/-- WR.CTRL.DIR, .SET, .CLR, .TOG for `sel` 0, 1, 2, 3. -/
def ctrlWrite (sel : Sel) (l : Lanes) (d : Word) : Instr :=
  bySel sel (.wrCtrlDir l d) (.wrCtrlSet l d) (.wrCtrlClr l d) (.wrCtrlTog l d)

/-- WR.INTCTL.DIR, .SET, .CLR, .TOG of line `n` for `sel` 0, 1, 2, 3. -/
def lineWrite (n : Line) (sel : Sel) (l : Lanes) (d : Word) : Instr :=
  bySel sel (.wrIntctlDir n l d) (.wrIntctlSet n l d) (.wrIntctlClr n l d) (.wrIntctlTog n l d)

/-- One bit of an aliased register after a write, from the old bit, the mask bit and the operand bit: replace,
set, clear or toggle the covered bits (`30_encoding.md` R81). -/
def aliasBit (sel : Sel) (old mask opnd : Bool) : Bool :=
  if sel = 0 then (if mask then opnd else old)
  else if sel = 1 then old || (mask && opnd)
  else if sel = 2 then old && !(mask && opnd)
  else old ^^ (mask && opnd)

/-! ### The operand forms, bit by bit (`20_memory.md` R55, R56) -/

/-- Bit `k` of a register is on a lane that the access covers. -/
def coveredBit (l : Lanes) (k : Nat) : Bool :=
  decide (8 * l.lane.toNat ≤ k ∧ k < 8 * l.lane.toNat + l.width)

/-- Bit `k` of the lane-positioned operand: the right-justified datum's bit on a covered lane, else 0. -/
def operandBit (l : Lanes) (d : Word) (k : Nat) : Bool :=
  coveredBit l k && d.getLsbD (k - 8 * l.lane.toNat)

/-- `v` is `(r >> (8 * lane))[w-1:0]`, zero-extended. -/
def ReadsLanes (l : Lanes) (r v : Word) : Prop :=
  ∀ k, v.getLsbD k = (decide (k < l.width) && r.getLsbD (8 * l.lane.toNat + k))

/-! ### Legal events (`20_memory.md` R52, R54, `30_encoding.md` R77) -/

/-- "width 8 at any `off`; width 16 with `off[0] = 0`; width 32 with `off[1:0] = 0`" (R54). -/
def legalAccess (off : Word) (width : Nat) : Bool :=
  width == 8 || (width == 16 && off.toNat % 2 == 0) || (width == 32 && off.toNat % 4 == 0)

/-- The event is none of the refused encodings of R87. -/
def legalEvent : PortEvent → Bool
  | .bw off width _ => legalAccess off width
  | .br off width => legalAccess off width
  | .ln _ _ => true
  | .rs => true

/-! ### Two operations one after the other -/

/-- Both operations answer a next state, the second from the first's: the state after both. -/
def AfterBoth (i j : Instr) (s t : State) : Prop :=
  ∃ m, exec i s = .next m ∧ exec j m = .next t

end Sys2Proof.Machine
end

