-- ==== Sys2Proof/Certificates/Slice0/Obligations.lean ====
section
/-! DEFINITION. The statements for the provers. Where a docstring names a decision D<n> of
`92_eei_decisions.md`, the clause rests on the spec's own choice and not on the source document. -/

open Sys2Proof Sys2Proof.Machine

/-! ### Encoding -/

/-- Every well-formed operation that has an encoding decodes from it, with every operand at every value
(`30_encoding.md` R76 to R83). RAP and ARBITRATE have none (R83). -/
def Obligations.DecodeOfEncodeIsTheInstruction : Prop :=
  ∀ (i : Instr), i.wellFormed = true → ∀ e, encode i = some e → decode e = .ok i

/-- Every event that decodes is the encoding of the well-formed operation it decodes to, so no bit of an event
is dropped. -/
def Obligations.EncodeOfDecodeIsTheEvent : Prop :=
  ∀ (e : PortEvent) (i : Instr), decode e = .ok i → encode i = some e ∧ i.wellFormed = true

/-- The opcode table's mask and match rows (R91) name, at every legal bus transaction, the operation that the
unit map of R80 decodes. -/
def Obligations.DecodeAgreesWithMaskAndMatch : Prop :=
  ∀ (off data : Word) (w : Nat), legalAccess off w = true →
    (∃ i, decode (.br off w) = .ok i ∧ i.mnemonic = tableMnemonic brRows "RD.UNDEF" off) ∧
    (∃ i, decode (.bw off w data) = .ok i ∧ i.mnemonic = tableMnemonic bwRows "WR.UNDEF" off)

/-- A few of the spec's own decodings (`96_test_vectors_derived.md` T-DEC-5, 10, 13, 24, 27, 28, 30 and P2). -/
def Obligations.WordsOfTheSpecDecode : Prop :=
  decode (.bw 0x01B 8 0xAA) = .ok (.wrLevelackClr (.byte 3) 0xAA) ∧
  decode (.bw 0x02F 8 0x80) = .ok (.wrCtrlTog (.byte 3) 0x80) ∧
  decode (.br 0x070 32) = .ok (.rdRaised 3 0 .word) ∧
  decode (.br 0x0C0 32) = .ok (.rdRaw 2 0 .word) ∧
  decode (.bw 0x12A 16 0x0C0C) = .ok (.wrIntctlClr 0 (.half true) 0x0C0C) ∧
  decode (.bw 0x91C 8 0x14) = .ok (.wrIntctlTog 127 (.byte 0) 0x14) ∧
  decode (.br 0x920 32) = .ok (.rdUndef 0x92 0 .word) ∧
  decode (.bw 0x10020 32 0) = .ok (.wrUndef 0x1002 0 .word 0) ∧
  decode (.ln 70 true) = .ok (.lineAssert 70) ∧
  decode .rs = .ok .reset

/-- The pseudo-operations are the operations their expansions name (R90, D19), for every line and bank. -/
def Obligations.PseudoOperationsDecode : Prop :=
  decode pseudoAck = .ok (.wrLevelackDir .word 1) ∧
  decode pseudoGetvec = .ok (.rdVector 0 .word) ∧
  (∀ b, decode (pseudoPending b) = .ok (.rdRaised b 0 .word)) ∧
  ∀ n,
    decode (pseudoEnIrq n) = .ok (.wrIntctlSet n (.byte 0) 0x04) ∧
    decode (pseudoDisIrq n) = .ok (.wrIntctlClr n (.byte 0) 0x04) ∧
    decode (pseudoEnFiq n) = .ok (.wrIntctlSet n (.byte 0) 0x10) ∧
    decode (pseudoDisFiq n) = .ok (.wrIntctlClr n (.byte 0) 0x10) ∧
    decode (pseudoSoftirq n) = .ok (.wrIntctlSet n (.byte 0) 0x08)

/-! ### Steps -/

/-- A step takes the first event of `input` and runs the operation it decodes to; with no event waiting it
leaves the state as it is (the queue and the idle step are the model's own: log 1). -/
def Obligations.StepRunsTheDecodedInstruction : Prop :=
  (∀ (s : State) (e : PortEvent) (rest : List PortEvent) (i : Instr),
    s.input = e :: rest → decode e = .ok i → step s = exec i { s with input := rest }) ∧
  ∀ (s : State), s.input = [] → step s = .next s

/-- The refused encodings of R87 are refused by name: a width other than 8, 16, 32; a misaligned access. That
they are refused, and not split or rounded, is the spec's decision D5 (log 8). -/
def Obligations.IllegalTransactionsAreRefused : Prop :=
  ∀ (s : State) (off data : Word) (w : Nat) (rest : List PortEvent) (e : PortEvent),
    s.input = e :: rest → (e = .br off w ∨ e = .bw off w data) →
    (w ≠ 8 → w ≠ 16 → w ≠ 32 → step s = .refused (.malformedWidth w)) ∧
    (w = 16 → off.toNat % 2 = 1 → step s = .refused (.misaligned off w)) ∧
    (w = 32 → off.toNat % 4 ≠ 0 → step s = .refused (.misaligned off w))

/-- "Nothing else is refused: every legal transaction at every offset, and every line event, has a defined
result" (R87, D5): the step completes and takes exactly that event. -/
def Obligations.EveryLegalEventCompletes : Prop :=
  ∀ (s : State) (e : PortEvent) (rest : List PortEvent),
    s.input = e :: rest → legalEvent e = true → ∃ t, step s = .next t ∧ t.input = rest

/-- Every operation is total (`00_scope.md` R12): it answers a next state from every state, never a fault
(`44_arbitration.md` R176) or a refusal, and takes no event. -/
def Obligations.EveryOperationIsTotal : Prop :=
  ∀ (i : Instr) (s : State), ∃ t, exec i s = .next t ∧ t.input = s.input

/-! ### The invariants of reachable states -/

/-- Every step keeps INV1 to INV7 of `10_state.md` R43. -/
def Obligations.StepKeepsTheInvariants : Prop :=
  ∀ (s t : State), s.icoll.Inv → step s = .next t → t.icoll.Inv

/-- INV1 to INV7 hold at reset; the reset values are the spec's decision D9 (log 5). -/
def Obligations.ResetSatisfiesTheInvariants : Prop := State.reset.icoll.Inv

/-! ### RAP -/

/-- DIRECT: the covered lanes take the written datum, the other lanes keep their old value; the old value is
handed back and no state is touched. -/
def Obligations.RapDirectReplacesTheCoveredLanes : Prop :=
  ∀ (s : State) (old mask opnd : Word),
    ∃ new, exec (.rap old 0 mask opnd) s = .next { s with response := .rapPair old new } ∧
      (∀ k, new.getLsbD k = if mask.getLsbD k then opnd.getLsbD k else old.getLsbD k) ∧
      (mask = 0xFFFFFFFF → new = opnd)

/-- SET, CLR and TOG, bit by bit, each with the old value handed back, and applied twice. -/
def Obligations.RapSetClearToggle : Prop :=
  ∀ (s : State) (old mask opnd : Word),
    ∃ a b c,
      exec (.rap old 1 mask opnd) s = .next { s with response := .rapPair old a } ∧
      exec (.rap a 1 mask opnd) s = .next { s with response := .rapPair a a } ∧
      (∀ k, a.getLsbD k = (old.getLsbD k || (opnd.getLsbD k && mask.getLsbD k))) ∧
      exec (.rap old 2 mask opnd) s = .next { s with response := .rapPair old b } ∧
      exec (.rap b 2 mask opnd) s = .next { s with response := .rapPair b b } ∧
      (∀ k, b.getLsbD k = (old.getLsbD k && !(opnd.getLsbD k && mask.getLsbD k))) ∧
      exec (.rap old 3 mask opnd) s = .next { s with response := .rapPair old c } ∧
      exec (.rap c 3 mask opnd) s = .next { s with response := .rapPair c old } ∧
      (∀ k, c.getLsbD k = (old.getLsbD k ^^ (opnd.getLsbD k && mask.getLsbD k)))

/-- A selector other than 0, 1, 2, 3 behaves as DIRECT; an offset's selector is always in 0..3, so in this
block the case never occurs. -/
def Obligations.RapUnknownSelectorIsDirect : Prop :=
  (∀ (s : State) (old mask opnd : Word) (sel : Nat), sel ≠ 1 → sel ≠ 2 → sel ≠ 3 →
    exec (.rap old sel mask opnd) s = exec (.rap old 0 mask opnd) s) ∧
  ∀ off : Word, (selOf off).toNat = 0 ∨ (selOf off).toNat = 1 ∨ (selOf off).toNat = 2 ∨ (selOf off).toNat = 3

/-- "No alias operation changes a bit outside the lanes the access covers"; in particular an 8-bit access at
lane `b` leaves the other three bytes unchanged. -/
def Obligations.RapChangesOnlyTheCoveredLanes : Prop :=
  ∀ (s : State) (old : Word) (sel : Nat),
    (∀ mask opnd, opnd &&& ~~~mask = 0 → ∃ new,
      exec (.rap old sel mask opnd) s = .next { s with response := .rapPair old new } ∧
      new &&& ~~~mask = old &&& ~~~mask) ∧
    ∀ (b : BitVec 2) (d : Word), ∃ new,
      exec (.rap old sel (laneMask (.byte b)) (laneOpnd (.byte b) d)) s =
        .next { s with response := .rapPair old new } ∧
      ∀ k, k / 8 ≠ b.toNat → new.getLsbD k = old.getLsbD k

/-- The algebra of `40_rap.md` R105 (1) to (7), an inference the spec marks as its own. -/
def Obligations.RapAlgebra : Prop :=
  ∀ (r a b m : Word), let F : Word := 0xFFFFFFFF
    (rap (rap r 1 m a).2 1 m a).2 = (rap r 1 m a).2 ∧
    (rap (rap r 2 m a).2 2 m a).2 = (rap r 2 m a).2 ∧
    (rap (rap r 3 m a).2 3 m a).2 = r ∧
    (rap (rap r 1 m a).2 2 m a).2 = (rap r 2 m a).2 ∧
    (rap (rap r 2 m a).2 1 m a).2 = (rap r 1 m a).2 ∧
    (rap (rap r 1 m a).2 1 m b).2 = (rap r 1 m (a ||| b)).2 ∧
    (rap (rap r 2 m a).2 2 m b).2 = (rap r 2 m (a ||| b)).2 ∧
    (rap (rap r 3 m a).2 3 m b).2 = (rap r 3 m (a ^^^ b)).2 ∧
    (rap r 0 F a).2 = a ∧
    (rap r 1 m 0).2 = r ∧ (rap r 2 m 0).2 = r ∧ (rap r 3 m 0).2 = r ∧ (rap r 0 m 0).2 = r &&& ~~~m

/-! ### Bus reads -/

/-- A 32-bit read of LEVELACK, CTRL, RAISED`b` and RAW`b` hands back the stored word and changes nothing else;
bit `k` of RAISED`b` and of RAW`b` is line `32 * b + k` (`42_register_access.md` R123 to R126). That LEVELACK
reads back is D21 (log 17), that the selector is ignored is D11 (log 11). -/
def Obligations.WordReadsReturnTheStoredWord : Prop :=
  ∀ (s : State) (sel : Sel) (b : Bank),
    exec (.rdLevelack sel .word) s = .next { s with response := .readData s.icoll.levelack } ∧
    exec (.rdCtrl sel .word) s = .next { s with response := .readData s.icoll.ctrl } ∧
    ∃ v, exec (.rdRaised b sel .word) s = .next { s with response := .readData v } ∧
      exec (.rdRaw b sel .word) s = .next { s with response := .readData v } ∧
      ∀ k, k < 32 → v.getLsbD k = lineBit s.icoll.raised (BitVec.ofNat 7 (32 * b.toNat + k))

/-- A 32-bit read of INTCTL`n` hands back the control byte with zeros above it and changes nothing else; in a
state that keeps the invariants its softirq bit, bit 3 by D7 and log 6, reads 0 (R127). -/
def Obligations.LineControlReadsBackTheByte : Prop :=
  ∀ (s : State) (sel : Sel) (n : Line),
    ∃ v, exec (.rdIntctl n sel .word) s = .next { s with response := .readData v } ∧
      (∀ k, v.getLsbD k = (decide (k < 8) && (intctlByte s.icoll.intctl n).getLsbD k)) ∧
      (s.icoll.Inv → v.getLsbD 3 = false)

/-- RD.VECTOR hands back the stored word and changes nothing else, whatever is selected (the sentinel after reset
or an acknowledge, a stale index, the winner): `42_register_access.md` R122. In a state that keeps the
invariants that word is VECNUM with zeros above it, and while an output is 1 VECNUM is the index of the least
candidate of that class (`60_exceptions.md` R192). The field's width 7 is D6 (log 9), the least candidate D24
(log 20), the ignored selector D11 (log 11). -/
def Obligations.VectorReadNamesTheWinner : Prop :=
  ∀ (s : State) (sel : Sel), let n := vecnum s.icoll.vector
    exec (.rdVector sel .word) s = .next { s with response := .readData s.icoll.vector } ∧
      (s.icoll.Inv → s.icoll.vector = BitVec.ofNat 32 n.toNat ∧
        (s.icoll.fiqOut = true → LeastLine s.icoll.FiqCandidate n) ∧
        (s.icoll.irqOut = true → LeastLine s.icoll.IrqCandidate n))

/-- A read of any width and lane hands back the addressed lanes of what the 32-bit read hands back, whatever
the two selectors are, and changes nothing else (`20_memory.md` R56, `30_encoding.md` R82; D11, log 11). -/
def Obligations.NarrowReadsReturnTheLanes : Prop :=
  ∀ (s : State) (sel sel' : Sel) (l : Lanes) (b : Bank) (n : Line),
    ∀ rd ∈ [Instr.rdVector, Instr.rdLevelack, Instr.rdCtrl, Instr.rdRaised b, Instr.rdRaw b, Instr.rdIntctl n],
      ∃ r v, exec (rd sel .word) s = .next { s with response := .readData r } ∧
        exec (rd sel' l) s = .next { s with response := .readData v } ∧ ReadsLanes l r v

/-- A bus read never changes the collector, nor does a refused one take a step (`20_memory.md` R59, D27). -/
def Obligations.BusReadsLeaveTheCollector : Prop :=
  ∀ (s t : State) (off : Word) (w : Nat) (rest : List PortEvent),
    s.input = .br off w :: rest → step s = .next t → t.icoll = s.icoll ∧ t.input = rest

/-- A read of an undefined unit hands back 0 at every width and lane, emits `Diag(R, off)` and changes no
state: of the operation, and of the step that takes the transaction. -/
def Obligations.UndefinedReadsReturnZero : Prop :=
  (∀ (s : State) (u : UnitNo) (sel : Sel) (l : Lanes),
    exec (.rdUndef u sel l) s =
      .next { s with response := .readData 0, diags := s.diags ++ [⟨.read, mkOff u sel l.lane⟩] }) ∧
  ∀ (s : State) (off : Word) (w : Nat) (rest : List PortEvent),
    s.input = .br off w :: rest → legalAccess off w = true → (unitOf off).undefined = true →
    step s = .next { s with input := rest, response := .readData 0, diags := s.diags ++ [⟨.read, off⟩] }

/-! ### Bus writes that are discarded -/

/-- A write to an undefined unit is dropped with `Diag(W, off)` and no state changes, of the operation and of
the step that takes the transaction; a read of the same offset next returns 0, with its own diagnostic
(`42_register_access.md` R135, R128). The premise is the fixed point of arbitration that every reachable
state is (`10_state.md` R43 INV7, an inference the spec marks as its own), since every bus write ends with
`Arbitrate()` (R121, R138); that the write does this and no more in a state that is no fixed point is the
model's reading of R121 (log 27). -/
def Obligations.UndefinedWritesAreDropped : Prop :=
  (∀ (s : State) (u : UnitNo) (sel : Sel) (l : Lanes) (d : Word),
    exec (.wrUndef u sel l d) s = .next { s with
      icoll := arbitrate s.icoll, response := .nothing, diags := s.diags ++ [⟨.write, mkOff u sel l.lane⟩] }) ∧
  ∀ (s : State) (off data : Word) (w : Nat) (rest : List PortEvent), arbitrate s.icoll = s.icoll →
    s.input = .bw off w data :: rest → legalAccess off w = true → (unitOf off).undefined = true →
    step s = .next { s with input := rest, response := .nothing, diags := s.diags ++ [⟨.write, off⟩] } ∧
    ∀ (w' : Nat) (rest' : List PortEvent), rest = .br off w' :: rest' → legalAccess off w' = true →
      step { s with input := rest, response := .nothing, diags := s.diags ++ [⟨.write, off⟩] } =
        .next { s with
          input := rest', response := .readData 0, diags := s.diags ++ [⟨.write, off⟩] ++ [⟨.read, off⟩] }

/-- A write to VECTOR, RAISED`b` or RAW`b` is discarded and emits no diagnostic, at every selector, width, lane
and value (D10, log 10): it does the closing `Arbitrate()` of R121 only, and in a state that keeps the
invariants it changes nothing. -/
def Obligations.ReadOnlyRegistersDiscardWrites : Prop :=
  ∀ (s : State) (sel : Sel) (l : Lanes) (d : Word) (b : Bank),
    ∀ i ∈ [Instr.wrVector sel l d, Instr.wrRaised b sel l d, Instr.wrRaw b sel l d],
      exec i s = .next { s with icoll := arbitrate s.icoll, response := .nothing } ∧
      (s.icoll.Inv → exec i s = .next { s with response := .nothing })

/-! ### The control register -/

/-- WR.CTRL.DIR, .SET, .CLR, .TOG (`ctrlWrite` at `sel` 0, 1, 2, 3), at every width and lane: each bit by its
alias, and bit 30 forced on the 0 to 1 edge of bit 31, after RAP (R131; the position 30 is D8, log 6; that
nothing else happens is D22). No other state changes in a state that keeps the invariants; in any other the
closing `Arbitrate()` is all that is added. -/
def Obligations.ControlWriteFollowsAliasAndEdge : Prop :=
  ∀ (s : State) (sel : Sel) (l : Lanes) (d : Word),
    ∃ v, exec (ctrlWrite sel l d) s =
        .next { s with icoll := arbitrate { s.icoll with ctrl := v }, response := .nothing } ∧
      (s.icoll.Inv →
        exec (ctrlWrite sel l d) s = .next { s with icoll := { s.icoll with ctrl := v }, response := .nothing }) ∧
      let bit (k : Nat) := aliasBit sel (s.icoll.ctrl.getLsbD k) (coveredBit l k) (operandBit l d k)
      ∀ k, k < 32 → v.getLsbD k = (bit k || (decide (k = 30) && !s.icoll.ctrl.getLsbD 31 && bit 31))

/-- CTRL and LEVELACK control nothing (`10_state.md` R31, R32, `70_reset_and_hazards.md` R223; D21, D22): of two
collectors that differ in these words only, every operation makes two that still differ in these words only, and every operation but a read of one of
the two hands back the same. -/
def Obligations.ControlAndLevelackAreInert : Prop :=
  ∀ (i : Instr) (s t : State) (x y : Word), exec i s = .next t →
    ∃ t' x' y', exec i { s with icoll := { s.icoll with ctrl := x, levelack := y } } = .next t' ∧
      t'.icoll = { t.icoll with ctrl := x', levelack := y' } ∧ t'.diags = t.diags ∧
      ((∀ sel l, i ≠ .rdCtrl sel l ∧ i ≠ .rdLevelack sel l) → t'.response = t.response)

/-! ### The level-acknowledge -/

/-- WR.LEVELACK.DIR, .SET, .CLR, .TOG (`ackWrite` at `sel` 0, 1, 2, 3), at every width, lane and value: the
storage word by its alias, the pending bit of the line in VECNUM cleared, VECTOR set to the sentinel, then
arbitration (R151; D6 and D21, logs 9, 17). Every other element is unchanged, but for what arbitration
writes. -/
def Obligations.AcknowledgeClearsTheSelectedLine : Prop :=
  ∀ (s : State) (sel : Sel) (l : Lanes) (d : Word),
    ∃ c : Collector, exec (ackWrite sel l d) s = .next { s with icoll := arbitrate c, response := .nothing } ∧
      (∀ k, k < 32 → c.levelack.getLsbD k =
        aliasBit sel (s.icoll.levelack.getLsbD k) (coveredBit l k) (operandBit l d k)) ∧
      (∀ n, lineBit c.raised n = (lineBit s.icoll.raised n && !decide (n.toNat = s.icoll.vector.toNat % 128))) ∧
      c.vector = 0x7F ∧ c.irqen = s.icoll.irqen ∧ c.fiqen = s.icoll.fiqen ∧ c.intctl = s.icoll.intctl ∧
      c.ctrl = s.icoll.ctrl ∧ c.irqOut = s.icoll.irqOut ∧ c.fiqOut = s.icoll.fiqOut

/-- The outcome of an acknowledge: with no other candidate VECTOR reads the sentinel and both outputs are 0;
with another, the next winner is presented in the same write (`43_acknowledge.md` R151, R153; D6, D12 and D24,
logs 9, 12, 20). -/
def Obligations.AcknowledgeMovesToTheNextWinner : Prop :=
  ∀ (s : State) (sel : Sel) (l : Lanes) (d : Word),
    let v := vecnum s.icoll.vector
    ∃ t, exec (ackWrite sel l d) s = .next t ∧ lineBit t.icoll.raised v = false ∧
      ((∀ n, n ≠ v → ¬ s.icoll.FiqCandidate n ∧ ¬ s.icoll.IrqCandidate n) →
        t.icoll.vector = 0x7F ∧ t.icoll.irqOut = false ∧ t.icoll.fiqOut = false) ∧
      (∀ n, LeastLine (fun m => m ≠ v ∧ s.icoll.FiqCandidate m) n →
        t.icoll.vector = BitVec.ofNat 32 n.toNat ∧ t.icoll.fiqOut = true ∧ t.icoll.irqOut = false) ∧
      (∀ n, (∀ m, m ≠ v → ¬ s.icoll.FiqCandidate m) → LeastLine (fun m => m ≠ v ∧ s.icoll.IrqCandidate m) n →
        t.icoll.vector = BitVec.ofNat 32 n.toNat ∧ t.icoll.irqOut = true ∧ t.icoll.fiqOut = false)

/-- The acknowledge does not depend on what the write carries (`43_acknowledge.md` R152, D21): two writes to
unit 1 make collectors that differ in the LEVELACK word only. -/
def Obligations.AcknowledgeIgnoresWhatTheWriteCarries : Prop :=
  ∀ (s : State) (sel sel' : Sel) (l l' : Lanes) (d d' : Word),
    ∃ t t', exec (ackWrite sel l d) s = .next t ∧ exec (ackWrite sel' l' d') s = .next t' ∧
      t'.icoll = { t.icoll with levelack := t'.icoll.levelack }

/-- An acknowledge at `VECTOR = 0x7F`, which is the sentinel and line 127 alike (`43_acknowledge.md` R154, D6,
log 9), clears the pending bit of line 127 and no other. If line 127 was no candidate (nothing selected, the
bit perhaps pending but disabled), nothing else changes but the LEVELACK word. If it was presented as IRQ,
VECTOR keeps `0x7F` and both outputs drop. If it was presented as FIQ, the least IRQ candidate but 127 is
presented, or both outputs drop (R153); that outputs drop is D12 (log 12). -/
def Obligations.AcknowledgeAtTheSentinel : Prop :=
  ∀ (s : State) (sel : Sel) (l : Lanes) (d : Word), s.icoll.Inv → s.icoll.vector = 0x7F →
    ∃ t, exec (ackWrite sel l d) s = .next t ∧
      (∀ n, lineBit t.icoll.raised n = (lineBit s.icoll.raised n && !decide (n = 127))) ∧
      t.icoll.irqen = s.icoll.irqen ∧ t.icoll.fiqen = s.icoll.fiqen ∧ t.icoll.intctl = s.icoll.intctl ∧
      t.icoll.ctrl = s.icoll.ctrl ∧
      (¬ s.icoll.FiqCandidate 127 → ¬ s.icoll.IrqCandidate 127 →
        t.icoll = { s.icoll with raised := t.icoll.raised, levelack := t.icoll.levelack }) ∧
      (s.icoll.irqOut = true →
        t.icoll.vector = 0x7F ∧ t.icoll.irqOut = false ∧ t.icoll.fiqOut = false) ∧
      (s.icoll.fiqOut = true → (∀ n, n ≠ 127 → ¬ s.icoll.IrqCandidate n) →
        t.icoll.vector = 0x7F ∧ t.icoll.irqOut = false ∧ t.icoll.fiqOut = false) ∧
      ∀ n, s.icoll.fiqOut = true → LeastLine (fun m => m ≠ 127 ∧ s.icoll.IrqCandidate m) n →
        t.icoll.vector = BitVec.ofNat 32 n.toNat ∧ t.icoll.irqOut = true ∧ t.icoll.fiqOut = false

/-- Four direct byte writes of the bytes of a word, lanes 0 to 3, store in LEVELACK, in CTRL and in the control
byte of a line what one direct word write does (`20_memory.md` R57, an inference the spec marks as its own;
D3, D4, log 7): in LEVELACK the word; in CTRL the word, with bit 30 forced if bit 31 goes from 0 to 1 (D8, log
6); in the control byte the low byte without the softirq bit (D7, D15, logs 6, 15). -/
def Obligations.FourByteWritesMakeTheWord : Prop :=
  ∀ (s : State) (d : Word) (n : Line),
    let bytes (wr : Lanes → Word → Instr) (t : State) : Prop :=
      ∃ m, AfterBoth (wr (.byte 0) d) (wr (.byte 1) (d >>> 8)) s m ∧
        AfterBoth (wr (.byte 2) (d >>> 16)) (wr (.byte 3) (d >>> 24)) m t
    (∃ t v, bytes .wrLevelackDir t ∧ exec (.wrLevelackDir .word d) s = .next v ∧
      t.icoll.levelack = d ∧ v.icoll.levelack = d) ∧
    (∃ t v, bytes .wrCtrlDir t ∧ exec (.wrCtrlDir .word d) s = .next v ∧ t.icoll.ctrl = v.icoll.ctrl ∧
      ∀ k, k < 32 → v.icoll.ctrl.getLsbD k =
        (d.getLsbD k || (decide (k = 30) && !s.icoll.ctrl.getLsbD 31 && d.getLsbD 31))) ∧
    ∃ t v, bytes (.wrIntctlDir n) t ∧ exec (.wrIntctlDir n .word d) s = .next v ∧ t.icoll.intctl = v.icoll.intctl ∧
      ∀ k, k < 8 → (intctlByte v.icoll.intctl n).getLsbD k = (d.getLsbD k && !decide (k = 3))

/-! ### The per-line control byte -/

/-- WR.INTCTL.DIR, .SET, .CLR, .TOG (`lineWrite` at `sel` 0, 1, 2, 3), at every line, width, lane and value: the
new byte by its alias, stored without the softirq bit; the enables copied from the new byte; the pending bit
set if the operand has the softirq bit, through every alias; then arbitration (R134, R137; the positions are
D7, the operand D14, the one lane D15; logs 6, 14, 15). Every other element is unchanged, but for what
arbitration writes. -/
def Obligations.LineControlWriteRoutesAndInjects : Prop :=
  ∀ (s : State) (n : Line) (sel : Sel) (l : Lanes) (d : Word),
    let bit (k : Nat) := aliasBit sel ((intctlByte s.icoll.intctl n).getLsbD k) (coveredBit l k) (operandBit l d k)
    ∃ c : Collector, exec (lineWrite n sel l d) s = .next { s with icoll := arbitrate c, response := .nothing } ∧
      (∀ k, k < 8 → (intctlByte c.intctl n).getLsbD k = (bit k && !decide (k = 3))) ∧
      (∀ m, m ≠ n → intctlByte c.intctl m = intctlByte s.icoll.intctl m) ∧
      (∀ m, lineBit c.irqen m = if m = n then bit 2 else lineBit s.icoll.irqen m) ∧
      (∀ m, lineBit c.fiqen m = if m = n then bit 4 else lineBit s.icoll.fiqen m) ∧
      (∀ m, lineBit c.raised m = (lineBit s.icoll.raised m || (decide (m = n) && operandBit l d 3))) ∧
      c.vector = s.icoll.vector ∧ c.levelack = s.icoll.levelack ∧ c.ctrl = s.icoll.ctrl ∧
      c.irqOut = s.icoll.irqOut ∧ c.fiqOut = s.icoll.fiqOut

/-- A per-line control write that covers none of lane 0 changes nothing (R137 (7), D15). -/
def Obligations.UpperLaneControlWritesChangeNothing : Prop :=
  ∀ (s : State) (n : Line) (sel : Sel) (l : Lanes) (d : Word), s.icoll.Inv → l.lane ≠ 0 →
    exec (lineWrite n sel l d) s = .next { s with response := .nothing }

/-- One write that leaves a line enabled for IRQ and pending, because it was pending or because the write
injects it, presents that line at once if no FIQ candidate exists and no lower IRQ candidate outranks it: a
softirq injection asserts IRQ "within the same register write" (R137 (4), D7), and a line pending while
masked fires when it is enabled (`41_line_latch.md` R113). The operand is D14, the other output at 0 D12 (logs 6,
14, 12). -/
def Obligations.LineControlWritePresentsTheLine : Prop :=
  ∀ (s : State) (n : Line) (sel : Sel) (l : Lanes) (d : Word),
    let bit (k : Nat) := aliasBit sel ((intctlByte s.icoll.intctl n).getLsbD k) (coveredBit l k) (operandBit l d k)
    bit 2 = true → bit 4 = false → (lineBit s.icoll.raised n || operandBit l d 3) = true →
    (∀ m, m ≠ n → ¬ s.icoll.FiqCandidate m) →
    (∀ m, m.toNat < n.toNat → ¬ s.icoll.IrqCandidate m) →
    ∃ t, exec (lineWrite n sel l d) s = .next t ∧ lineBit t.icoll.raised n = true ∧
      t.icoll.vector = BitVec.ofNat 32 n.toNat ∧ t.icoll.irqOut = true ∧ t.icoll.fiqOut = false

/-! ### Line events -/

/-- `SetLine(n, level)`: one bit of RAISED is written, the others are unchanged, then arbitration; no other
element changes, but for what arbitration writes; total in every state. -/
def Obligations.LineEventsWriteOnePendingBit : Prop :=
  ∀ (s : State) (n : Line) (level : Bool),
    ∃ r : Banks,
      exec (if level then .lineAssert n else .lineDeassert n) s =
        .next { s with icoll := arbitrate { s.icoll with raised := r }, response := .nothing } ∧
      ∀ m, lineBit r m = if m = n then level else lineBit s.icoll.raised m

/-- A line event twice in a row leaves the state identical to the event once (`41_line_latch.md` R111 (1), R114,
an inference the spec marks as its own). -/
def Obligations.LineEventsAreIdempotent : Prop :=
  ∀ (s : State) (n : Line), ∀ i ∈ [Instr.lineAssert n, Instr.lineDeassert n],
    ∃ t, exec i s = .next t ∧ exec i t = .next t

/-- Latching ignores the enables: a line disabled for both classes is latched, and its pending bit is all that
changes (`41_line_latch.md` R111 (2), R113). -/
def Obligations.DisabledLineIsLatchedOnly : Prop :=
  ∀ (s : State) (n : Line), s.icoll.Inv → lineBit s.icoll.irqen n = false → lineBit s.icoll.fiqen n = false →
    ∃ t, exec (.lineAssert n) s = .next t ∧ lineBit t.icoll.raised n = true ∧
      t.icoll = { s.icoll with raised := t.icoll.raised } ∧
      ∀ m, m ≠ n → lineBit t.icoll.raised m = lineBit s.icoll.raised m

/-- Deasserting the last candidate drops both outputs and leaves its index in VECTOR (`41_line_latch.md` R112
(2), `44_arbitration.md` R173; that both outputs are driven is D12, log 12). -/
def Obligations.DeassertingTheLastCandidateGoesStale : Prop :=
  ∀ (s : State) (n : Line),
    (∀ m, m ≠ n → ¬ s.icoll.FiqCandidate m ∧ ¬ s.icoll.IrqCandidate m) →
    ∃ t, exec (.lineDeassert n) s = .next t ∧ lineBit t.icoll.raised n = false ∧
      t.icoll.irqOut = false ∧ t.icoll.fiqOut = false ∧ t.icoll.vector = s.icoll.vector

/-! ### Arbitration -/

/-- `Arbitrate()` in closed form, R167's table: the least FIQ candidate, else the least IRQ candidate, else
VECTOR kept; both outputs driven; nothing else changes. The closed form is an inference the spec marks as its
own, the driven outputs D12, the candidate and not the raised line D24 (logs 12, 20). -/
def Obligations.ArbitrateSelectsTheLeastCandidate : Prop :=
  ∀ (s : State), let c := s.icoll
    ∃ t, exec .arbitrate s = .next { s with icoll := t, response := .nothing } ∧
      (∀ n, LeastLine c.FiqCandidate n →
        t = { c with vector := BitVec.ofNat 32 n.toNat, fiqOut := true, irqOut := false }) ∧
      (∀ n, (∀ m, ¬ c.FiqCandidate m) → LeastLine c.IrqCandidate n →
        t = { c with vector := BitVec.ofNat 32 n.toNat, fiqOut := false, irqOut := true }) ∧
      (¬ c.HasCandidate → t = { c with fiqOut := false, irqOut := false }) ∧
      ((∃ n, c.FiqCandidate n) → ∃ n, LeastLine c.FiqCandidate n) ∧
      ((∃ n, c.IrqCandidate n) → ∃ n, LeastLine c.IrqCandidate n)

/-- One FIQ candidate anywhere, whatever its index: the vector is a FIQ line and only FIQ_OUT is asserted
(`44_arbitration.md` R169). A line enabled for both classes is serviced as FIQ. That IRQ_OUT is driven to 0, also
where it was 1, is D12 (log 12). -/
def Obligations.FiqPreemptsIrq : Prop :=
  ∀ (s : State) (n : Line), s.icoll.FiqCandidate n →
    ∃ t, exec .arbitrate s = .next t ∧ t.icoll.fiqOut = true ∧ t.icoll.irqOut = false ∧
      s.icoll.FiqCandidate (vecnum t.icoll.vector) ∧
      ((∀ m, s.icoll.FiqCandidate m → m = n) → t.icoll.vector = BitVec.ofNat 32 n.toNat)

/-- Within a class the lowest index wins, and there is no other ordering: the winner is a candidate of the
class and no candidate of the class has a lower index (`44_arbitration.md` R170). That the winner is the least
candidate and not the least raised line is D24 (log 20); that an output at 1 tells the winner's class needs both
outputs driven, D12 (log 12). -/
def Obligations.LowestIndexWins : Prop :=
  ∀ (s : State), ∃ t, exec .arbitrate s = .next t ∧
    (t.icoll.fiqOut = true → LeastLine s.icoll.FiqCandidate (vecnum t.icoll.vector)) ∧
    (t.icoll.irqOut = true → LeastLine s.icoll.IrqCandidate (vecnum t.icoll.vector)) ∧
    (∀ m n, m.toNat < n.toNat → (∀ k, s.icoll.IrqCandidate k ↔ k = m ∨ k = n) → (∀ k, ¬ s.icoll.FiqCandidate k) →
      t.icoll.vector = BitVec.ofNat 32 m.toNat ∧ t.icoll.irqOut = true)

/-- VECNUM is left alone when no candidate exists, and only three things write it (`44_arbitration.md` R173): an
operation that changes VECTOR leaves the winner of an arbitration there, the least FIQ candidate or, with none,
the least IRQ candidate; or it is a level-acknowledge or reset and leaves the sentinel. That the winner is the
least candidate is D24 (log 20), the sentinel D6 (log 9). -/
def Obligations.VectorIsRetained : Prop :=
  (∀ (s : State), ¬ s.icoll.HasCandidate →
    ∃ t, exec .arbitrate s = .next t ∧ t.icoll.vector = s.icoll.vector) ∧
  ∀ (i : Instr) (s t : State), exec i s = .next t → t.icoll.vector ≠ s.icoll.vector →
    (∃ n, t.icoll.vector = BitVec.ofNat 32 n.toNat ∧
      (LeastLine t.icoll.FiqCandidate n ∨
        (∀ m, ¬ t.icoll.FiqCandidate m) ∧ LeastLine t.icoll.IrqCandidate n)) ∨
    (t.icoll.vector = 0x7F ∧ ((∃ sel l d, i = ackWrite sel l d) ∨ i = .reset))

/-- Arbitration applied twice gives the same state as applied once (`44_arbitration.md` R172, an inference the
spec marks as its own). -/
def Obligations.ArbitrateIsIdempotent : Prop :=
  ∀ (s : State), ∃ t, exec .arbitrate s = .next t ∧ exec .arbitrate t = .next t

/-- The bank-word forms of `44_arbitration.md` R177, an inference the spec marks as its own: each output says
whether the union of the banks' candidate words is not zero. -/
def Obligations.OutputsAreUnionsOfCandidateWords : Prop :=
  ∀ (s : State), let w (e : Banks) (b : Bank) := bankWord s.icoll.raised b &&& bankWord e b
    ∃ t, exec .arbitrate s = .next t ∧
      (t.icoll.fiqOut = true ↔
        (w s.icoll.fiqen 0 ||| w s.icoll.fiqen 1 ||| w s.icoll.fiqen 2 ||| w s.icoll.fiqen 3) ≠ 0) ∧
      (t.icoll.irqOut = true ↔ t.icoll.fiqOut = false ∧
        (w s.icoll.irqen 0 ||| w s.icoll.irqen 1 ||| w s.icoll.irqen 2 ||| w s.icoll.irqen 3) ≠ 0)

/-- Arbitration reads RAISED, IRQEN, FIQEN and VECNUM and nothing else (`44_arbitration.md` R166, R175). -/
def Obligations.ArbitrateReadsOnlyItsInputs : Prop :=
  ∀ (s s' t t' : State), exec .arbitrate s = .next t → exec .arbitrate s' = .next t' →
    s.icoll.raised = s'.icoll.raised → s.icoll.irqen = s'.icoll.irqen → s.icoll.fiqen = s'.icoll.fiqen →
    s.icoll.vector = s'.icoll.vector →
    t.icoll.vector = t'.icoll.vector ∧ t.icoll.irqOut = t'.icoll.irqOut ∧ t.icoll.fiqOut = t'.icoll.fiqOut

/-! ### Reset -/

/-- RESET writes every element of `10_state.md` R20, from every state, to the values of R44 (the spec's decision
D9, log 5); `State.reset` has the same. The events still to come and the diagnostics already emitted stay
(the model's choice, log 4). -/
def Obligations.ResetWritesEveryElement : Prop :=
  ∀ (s : State), ∃ c : Collector, exec .reset s = .next { s with icoll := c, response := .nothing } ∧
    (∀ n, lineBit c.raised n = false ∧ lineBit c.irqen n = false ∧ lineBit c.fiqen n = false ∧
      intctlByte c.intctl n = 0) ∧
    c.vector = 0x7F ∧ c.levelack = 0 ∧ c.ctrl = 0 ∧ c.irqOut = false ∧ c.fiqOut = false ∧
    State.reset.icoll = c

/-! ### Rules of the whole machine -/

/-- What changes a pending bit, and nothing else: set by an assert of the line or by a per-line control write
whose operand has bit 3 (D7, D14); cleared by a deassert, by an acknowledge while VECNUM names the line, by
reset (`41_line_latch.md` R117, an inference the spec marks as its own). -/
def Obligations.WhatChangesAPendingBit : Prop :=
  ∀ (i : Instr) (s t : State) (n : Line), exec i s = .next t →
    (lineBit s.icoll.raised n = false → lineBit t.icoll.raised n = true →
      i = .lineAssert n ∨ ∃ sel l d, i = lineWrite n sel l d ∧ operandBit l d 3 = true) ∧
    (lineBit s.icoll.raised n = true → lineBit t.icoll.raised n = false →
      i = .lineDeassert n ∨ (∃ sel l d, i = ackWrite sel l d ∧ vecnum s.icoll.vector = n) ∨ i = .reset)

/-- The enables and the control byte of a line are written by its per-line control write and by reset only
(`10_state.md` R24). -/
def Obligations.OnlyControlWritesRoute : Prop :=
  ∀ (i : Instr) (s t : State) (n : Line), exec i s = .next t →
    (∀ sel l d, i ≠ lineWrite n sel l d) → i ≠ .reset →
    lineBit t.icoll.irqen n = lineBit s.icoll.irqen n ∧ lineBit t.icoll.fiqen n = lineBit s.icoll.fiqen n ∧
      intctlByte t.icoll.intctl n = intctlByte s.icoll.intctl n

/-- The diagnostic is emitted by out-of-range accesses and by nothing else, one event each, and what has been
emitted changes nothing later (`60_exceptions.md` R186, R187; D18; that the model keeps the events is log 4). -/
def Obligations.DiagnosticsComeFromUndefinedUnitsOnly : Prop :=
  ∀ (i : Instr) (s t : State), exec i s = .next t →
    (t.diags = s.diags ∨
      ∃ u sel l, (i = .rdUndef u sel l ∧ t.diags = s.diags ++ [⟨.read, mkOff u sel l.lane⟩]) ∨
        ∃ d, i = .wrUndef u sel l d ∧ t.diags = s.diags ++ [⟨.write, mkOff u sel l.lane⟩]) ∧
    ∀ h, ∃ t', exec i { s with diags := h } = .next t' ∧ t'.icoll = t.icoll ∧ t'.response = t.response

/-- The service state machine of `43_acknowledge.md` R156, an inference the spec marks as its own: with a
candidate afterwards, ACTIVE; without, an acknowledge or reset goes to IDLE and anything else keeps VECNUM, so
that ACTIVE(v) and STALE(v) go to STALE(v), and IDLE stays. STALE(127) is IDLE, since the sentinel is 127
(D6). -/
def Obligations.ServiceStateTransitions : Prop :=
  ∀ (i : Instr) (s t : State), s.icoll.Inv → exec i s = .next t →
    (t.icoll.HasCandidate → t.icoll.service = .active (vecnum t.icoll.vector)) ∧
    (¬ t.icoll.HasCandidate → ((∃ sel l d, i = ackWrite sel l d) ∨ i = .reset) → t.icoll.service = .idle) ∧
    (¬ t.icoll.HasCandidate → (∀ sel l d, i ≠ ackWrite sel l d) → i ≠ .reset →
      t.icoll.service =
        if vecnum s.icoll.vector = 0x7F then .idle else .stale (vecnum s.icoll.vector))

/-- Two line events on different lines commute in RAISED and in the outputs, and in VECTOR if a candidate
remains (`60_exceptions.md` R191, an inference the spec marks as its own). -/
def Obligations.LineEventsCommute : Prop :=
  ∀ (s : State) (m n : Line) (a b : Bool), m ≠ n →
    let ev (k : Line) (x : Bool) : Instr := if x then .lineAssert k else .lineDeassert k
    ∃ t u, AfterBoth (ev m a) (ev n b) s t ∧ AfterBoth (ev n b) (ev m a) s u ∧
      u.icoll = { t.icoll with vector := u.icoll.vector } ∧
      (t.icoll.HasCandidate → u.icoll = t.icoll)

/-- `70_reset_and_hazards.md` R217 (1), R215: with line `a` presented as IRQ and a lower IRQ line `b` about to be
asserted, the two orders of the assert and an acknowledge clear different lines. -/
def Obligations.OrderOfAssertAndAcknowledgeMatters : Prop :=
  ∀ (s : State) (a b : Line) (sel : Sel) (l : Lanes) (d : Word), s.icoll.Inv →
    s.icoll.irqOut = true → vecnum s.icoll.vector = a → b.toNat < a.toNat →
    lineBit s.icoll.irqen b = true → lineBit s.icoll.fiqen b = false →
    ∃ t u, AfterBoth (.lineAssert b) (ackWrite sel l d) s t ∧ AfterBoth (ackWrite sel l d) (.lineAssert b) s u ∧
      lineBit t.icoll.raised b = false ∧ lineBit t.icoll.raised a = true ∧
      lineBit u.icoll.raised b = true ∧ lineBit u.icoll.raised a = false

/-- A CPU access inside the window is the bus transaction at `addr - BASE`, whose offset is exact; outside it
never reaches the block (`20_memory.md` R51, R62; BASE and WINDOW_BYTES are open, D16; that the window is
smaller than the offset's range is the model's choice, log 16). -/
def Obligations.CpuAccessesAreRouted : Prop :=
  ∀ (addr n : Nat) (v : Word),
    (Config.base ≤ addr → addr < Config.base + Config.windowBytes →
      ∃ off : Word, off.toNat = addr - Config.base ∧
        memRead addr n = some (.br off (8 * n)) ∧ memWrite addr n v = some (.bw off (8 * n) v)) ∧
    ((addr < Config.base ∨ Config.base + Config.windowBytes ≤ addr) →
      memRead addr n = none ∧ memWrite addr n v = none) ∧
    0x920 ≤ Config.windowBytes ∧ Config.base % 16 = 0
end

