-- ==== Sys2Proof/Laws/Decode.lean ====
section
/-! SUPPORT. The fields of an offset, the lanes of an access and the unit map, each with its inverse. -/

namespace Sys2Proof

theorem mkOff_getLsbD (u : UnitNo) (s : Sel) (b : BitVec 2) (i : Nat) :
    (mkOff u s b).getLsbD i =
      if i < 2 then b.getLsbD i else if i < 4 then s.getLsbD (i - 2) else u.getLsbD (i - 4) := by
  have h1 := BitVec.getLsbD_append (x := u ++ s) (y := b) (i := i)
  have h2 := BitVec.getLsbD_append (x := u) (y := s) (i := i - 2)
  refine h1.trans ?_
  rw [h2]
  by_cases hi : i < 2
  · simp [hi]
  · by_cases hj : i < 4
    · rw [if_neg hi, if_neg hi, if_pos hj, if_pos (by omega)]
    · rw [if_neg hi, if_neg hi, if_neg hj, if_neg (by omega), Nat.sub_sub]

@[simp] theorem laneOf_mkOff (u : UnitNo) (s : Sel) (b : BitVec 2) : laneOf (mkOff u s b) = b := by
  apply BitVec.eq_of_getLsbD_eq
  intro i hi
  simp only [laneOf, BitVec.getLsbD_extractLsb', mkOff_getLsbD]
  rw [if_pos (by omega)]
  simp [hi]

@[simp] theorem selOf_mkOff (u : UnitNo) (s : Sel) (b : BitVec 2) : selOf (mkOff u s b) = s := by
  apply BitVec.eq_of_getLsbD_eq
  intro i hi
  simp only [selOf, BitVec.getLsbD_extractLsb', mkOff_getLsbD]
  rw [if_neg (by omega), if_pos (by omega), Nat.add_sub_cancel_left]
  simp [hi]

@[simp] theorem unitOf_mkOff (u : UnitNo) (s : Sel) (b : BitVec 2) : unitOf (mkOff u s b) = u := by
  apply BitVec.eq_of_getLsbD_eq
  intro i hi
  simp only [unitOf, BitVec.getLsbD_extractLsb', mkOff_getLsbD]
  rw [if_neg (by omega), if_neg (by omega), Nat.add_sub_cancel_left]
  simp [hi]

/-- An offset is its three fields (R76). -/
@[simp] theorem mkOff_fields (off : Word) : mkOff (unitOf off) (selOf off) (laneOf off) = off := by
  apply BitVec.eq_of_getLsbD_eq
  intro i hi
  simp only [mkOff_getLsbD, unitOf, selOf, laneOf, BitVec.getLsbD_extractLsb']
  by_cases h2 : i < 2
  · simp [h2]
  · by_cases h4 : i < 4
    · rw [if_neg h2, if_pos h4, show 2 + (i - 2) = i by omega, decide_eq_true (by omega : i - 2 < 2)]; simp
    · rw [if_neg h2, if_neg h4, show 4 + (i - 4) = i by omega, decide_eq_true (by omega : i - 4 < 28)]; simp

/-- The lanes an encoded access decodes to. -/
@[simp] theorem lanesOf_mkOff (u : UnitNo) (s : Sel) (l : Lanes) :
    lanesOf (mkOff u s l.lane) l.width = .ok l := by
  rcases l with b | h | _
  · simp [lanesOf, Lanes.width, Lanes.lane]
  · cases h <;> simp [lanesOf, Lanes.width, Lanes.lane]
  · simp [lanesOf, Lanes.width, Lanes.lane]

/-- What the lanes of an access say of it. -/
theorem lanesOf_eq_ok {off : Word} {w : Nat} {l : Lanes} (h : lanesOf off w = .ok l) :
    l.lane = laneOf off ∧ l.width = w := by
  unfold lanesOf at h
  split at h
  · cases h; simp [Lanes.lane, Lanes.width, *]
  · split at h
    · split at h
      · cases h; simp [Lanes.lane, Lanes.width, *]
      · split at h <;> cases h; simp [Lanes.lane, Lanes.width, *]
    · split at h
      · split at h <;> cases h; simp [Lanes.lane, Lanes.width, *]
      · cases h

/-- The unit map and the encoder's units (R29, R80). -/
@[simp] theorem regOf_raisedUnit (b : Bank) : regOf (raisedUnit b) = .raised b := by revert b; decide
@[simp] theorem regOf_rawUnit (b : Bank) : regOf (rawUnit b) = .raw b := by revert b; decide
@[simp] theorem regOf_intctlUnit (n : Line) : regOf (intctlUnit n) = .intctl n := by
  have := n.isLt
  have e : (intctlUnit n).toNat = 0x12 + n.toNat := by
    simp only [intctlUnit, BitVec.toNat_ofNat]; omega
  simp only [regOf, e]
  rw [if_neg (by omega), if_neg (by omega), if_neg (by omega), if_neg (by omega), if_neg (by omega),
    if_pos (by omega)]
  simp
theorem regOf_undefined {u : UnitNo} (h : u.undefined = true) : regOf u = .undef := by
  simp only [UnitNo.undefined, Bool.or_eq_true, Bool.and_eq_true, beq_iff_eq, decide_eq_true_eq] at h
  simp only [regOf]
  rw [if_neg (by omega), if_neg (by omega), if_neg (by omega), if_neg (by omega), if_neg (by omega),
    if_neg (by omega)]

/-- Which unit selects which register (R80, R84). -/
theorem regOf_cases (u : UnitNo) :
    (u = 0 ∧ regOf u = .vector) ∨ (u = 1 ∧ regOf u = .levelack) ∨ (u = 2 ∧ regOf u = .ctrl) ∨
    (∃ b, u = raisedUnit b ∧ regOf u = .raised b) ∨ (∃ b, u = rawUnit b ∧ regOf u = .raw b) ∨
    (∃ n, u = intctlUnit n ∧ regOf u = .intctl n) ∨ (u.undefined = true ∧ regOf u = .undef) := by
  by_cases h0 : u.toNat = 0
  · exact .inl ⟨BitVec.eq_of_toNat_eq h0, by simp [regOf, h0]⟩
  by_cases h1 : u.toNat = 1
  · exact .inr (.inl ⟨BitVec.eq_of_toNat_eq h1, by simp [regOf, h1]⟩)
  by_cases h2 : u.toNat = 2
  · exact .inr (.inr (.inl ⟨BitVec.eq_of_toNat_eq h2, by simp [regOf, h2]⟩))
  by_cases h4 : 4 ≤ u.toNat ∧ u.toNat ≤ 7
  · refine .inr (.inr (.inr (.inl ⟨BitVec.ofNat 2 (u.toNat - 4), ?_, by simp [regOf, h0, h1, h2, h4]⟩)))
    apply BitVec.eq_of_toNat_eq
    simp only [raisedUnit, BitVec.toNat_ofNat]
    omega
  by_cases hA : 0xA ≤ u.toNat ∧ u.toNat ≤ 0xD
  · refine .inr (.inr (.inr (.inr (.inl ⟨BitVec.ofNat 2 (u.toNat - 0xA), ?_,
      by simp [regOf, h0, h1, h2, h4, hA]⟩))))
    apply BitVec.eq_of_toNat_eq
    simp only [rawUnit, BitVec.toNat_ofNat]
    omega
  by_cases hI : 0x12 ≤ u.toNat ∧ u.toNat ≤ 0x91
  · refine .inr (.inr (.inr (.inr (.inr (.inl ⟨BitVec.ofNat 7 (u.toNat - 0x12), ?_,
      by simp [regOf, h0, h1, h2, h4, hA, hI]⟩)))))
    apply BitVec.eq_of_toNat_eq
    simp only [intctlUnit, BitVec.toNat_ofNat]
    omega
  · have hu : u.undefined = true := by
      simp only [UnitNo.undefined, Bool.or_eq_true, Bool.and_eq_true, beq_iff_eq, decide_eq_true_eq]
      omega
    exact .inr (.inr (.inr (.inr (.inr (.inr ⟨hu, regOf_undefined hu⟩)))))

end Sys2Proof
end

