-- ==== Sys2Proof/Laws/Flags.lean ====
section
/-! SUPPORT. What reading and writing the flags does, bit by bit. -/

namespace Sys2Proof.Machine

theorem posOf_lt (n : Line) : posOf n < 32 := (n.extractLsb' 0 5).isLt

theorem bankOf_toNat (n : Line) : (bankOf n).toNat = n.toNat / 32 := by
  have := n.isLt
  simp only [bankOf, BitVec.extractLsb'_toNat, Nat.shiftRight_eq_div_pow]
  omega

theorem posOf_eq (n : Line) : posOf n = n.toNat % 32 := by
  simp [posOf, BitVec.extractLsb'_toNat]

/-- A line is its bank and its bit position (R8). -/
theorem line_eq_iff (m n : Line) : m = n ↔ bankOf m = bankOf n ∧ posOf m = posOf n := by
  refine ⟨by rintro rfl; simp, fun ⟨hb, hp⟩ => ?_⟩
  have hb := congrArg BitVec.toNat hb
  rw [bankOf_toNat, bankOf_toNat] at hb
  rw [posOf_eq, posOf_eq] at hp
  exact BitVec.eq_of_toNat_eq (by omega)

theorem getLsbD_one_shiftLeft {w : Nat} (k j : Nat) (hw : 0 < w) :
    ((1#w) <<< k).getLsbD j = (decide (j < w) && decide (j = k)) := by
  rw [BitVec.getLsbD_shiftLeft, BitVec.getLsbD_one]
  by_cases hj : j < w <;> by_cases hk : j = k <;> simp [*]
  omega

theorem writeBit_getLsbD (w : Word) (k j : Nat) (b : Bool) (hk : k < 32) :
    (writeBit w k b).getLsbD j = if j = k then b else w.getLsbD j := by
  have one := getLsbD_one_shiftLeft (w := 32) k j (by decide)
  cases b with
  | true =>
    change (w ||| 1#32 <<< k).getLsbD j = _
    rw [BitVec.getLsbD_or, one]
    by_cases hj : j = k <;> simp [hj, hk]
  | false =>
    change (w &&& ~~~(1#32 <<< k)).getLsbD j = _
    rw [BitVec.getLsbD_and, BitVec.getLsbD_not, one]
    by_cases hj : j = k
    · simp [hj, hk]
    · by_cases h32 : j < 32
      · simp [hj, h32]
      · simp [hj, BitVec.getLsbD_of_ge w j (by omega)]

theorem bankWord_setLineBit (x : Banks) (n : Line) (b : Bool) (k : Bank) :
    bankWord (setLineBit x n b) k =
      if k = bankOf n then writeBit (bankWord x (bankOf n)) (posOf n) b else bankWord x k := by
  simp only [bankWord, setLineBit, Vector.getElem_set]
  by_cases h : k = bankOf n
  · simp [h]
  · have : (bankOf n).toNat ≠ k.toNat := fun e => h (BitVec.eq_of_toNat_eq e.symm)
    simp [h, this]

/-- Writing the bit of one line writes that bit and no other (R9). -/
@[simp] theorem lineBit_setLineBit (x : Banks) (n m : Line) (b : Bool) :
    lineBit (setLineBit x n b) m = if m = n then b else lineBit x m := by
  simp only [lineBit, bankWord_setLineBit]
  by_cases hb : bankOf m = bankOf n
  · rw [if_pos hb, writeBit_getLsbD _ _ _ _ (posOf_lt n)]
    by_cases hp : posOf m = posOf n
    · rw [if_pos hp, if_pos ((line_eq_iff m n).2 ⟨hb, hp⟩)]
    · rw [if_neg hp, if_neg (fun e => hp ((line_eq_iff m n).1 e).2), hb]
  · rw [if_neg hb, if_neg (fun e => hb ((line_eq_iff m n).1 e).1)]

/-- Bank arrays with equal line bits are equal. -/
theorem banks_ext {x y : Banks} (h : ∀ n, lineBit x n = lineBit y n) : x = y := by
  apply Vector.ext
  intro i hi
  apply BitVec.eq_of_getLsbD_eq
  intro j hj
  have := h (BitVec.ofNat 7 (32 * i + j))
  simp only [lineBit, bankWord, bankOf_toNat, posOf_eq, BitVec.toNat_ofNat] at this
  have e1 : (32 * i + j) % 2 ^ 7 / 32 = i := by omega
  have e2 : (32 * i + j) % 2 ^ 7 % 32 = j := by omega
  simpa only [e1, e2] using this

@[simp] theorem intctlByte_setIntctlByte (x : Vector Byte 128) (n m : Line) (v : Byte) :
    intctlByte (setIntctlByte x n v) m = if m = n then v else intctlByte x m := by
  simp only [intctlByte, setIntctlByte, Vector.getElem_set]
  by_cases h : m = n
  · simp [h]
  · have : n.toNat ≠ m.toNat := fun e => h (BitVec.eq_of_toNat_eq e.symm)
    simp [h, this]

/-- Control byte arrays with equal bytes are equal. -/
theorem intctl_ext {x y : Vector Byte 128} (h : ∀ n, intctlByte x n = intctlByte y n) : x = y := by
  apply Vector.ext
  intro i hi
  have := h (BitVec.ofNat 7 i)
  simp only [intctlByte, BitVec.toNat_ofNat] at this
  have e : i % 2 ^ 7 = i := by omega
  simpa only [e] using this

@[simp] theorem withoutSoftirq_getLsbD (v : Byte) (k : Nat) :
    (withoutSoftirq v).getLsbD k = (v.getLsbD k && !decide (k = 3)) := by
  simp only [withoutSoftirq, intctlSoftirqBit, BitVec.getLsbD_and, BitVec.getLsbD_not,
    getLsbD_one_shiftLeft _ _ (by decide : 0 < 8)]
  by_cases h8 : k < 8
  · simp [h8]
  · simp [BitVec.getLsbD_of_ge v k (by omega)]

/-- The companion bit is forced exactly on the 0 to 1 edge of bit 31, and no other bit is (R131). -/
theorem forceCompanion_getLsbD (prev new : Word) (k : Nat) :
    (forceCompanion prev new).getLsbD k =
      (new.getLsbD k || (decide (k = 30) && !prev.getLsbD 31 && new.getLsbD 31)) := by
  unfold forceCompanion
  split <;> rename_i h <;> simp only [ctrlEdge, ctrlEdgeBit] at h
  · simp only [ctrlCompanionBit, BitVec.getLsbD_or, getLsbD_one_shiftLeft _ _ (by decide : 0 < 32)]
    rw [Bool.and_assoc, h]
    by_cases hk : k = 30 <;> simp [hk]
  · simp only [Bool.not_eq_true] at h
    rw [Bool.and_assoc, h]; simp

@[simp] theorem vecnum_vecNone : vecnum vecNone = 0x7F := by decide

theorem vecnum_ofNat (n : Line) : vecnum (BitVec.ofNat 32 n.toNat) = n := by
  apply BitVec.eq_of_toNat_eq
  have := n.isLt
  simp only [vecnum, BitVec.extractLsb'_toNat, BitVec.toNat_ofNat, Nat.shiftRight_zero]
  omega

end Sys2Proof.Machine
end

