-- ==== Sys2Proof/Laws/Operands.lean ====
section
/-! SUPPORT. The operand forms, bit by bit. -/

namespace Sys2Proof.Machine

/-- A legal access stays inside the 32-bit slot (`20_memory.md` R54). -/
theorem laneShift_add_width_le (l : Lanes) : laneShift l + l.width ≤ 32 := by
  rcases l with b | u | _
  · have := b.isLt; simp only [laneShift, Lanes.lane, Lanes.width]; omega
  · cases u <;> decide
  · decide

/-- The mask has ones exactly on the covered lanes (R55). -/
theorem laneMask_getLsbD (l : Lanes) (k : Nat) :
    (laneMask l).getLsbD k = decide (laneShift l ≤ k ∧ k < laneShift l + l.width) := by
  have hs := laneShift_add_width_le l
  simp only [laneMask, BitVec.getLsbD_shiftLeft, BitVec.getLsbD_setWidth, BitVec.getLsbD_allOnes]
  by_cases h1 : laneShift l ≤ k <;> by_cases h2 : k < laneShift l + l.width <;> simp [*] <;> omega

/-- The operand is the datum's low bits moved to the covered lanes, zero elsewhere (R55). -/
theorem laneOpnd_getLsbD (l : Lanes) (d : Word) (k : Nat) :
    (laneOpnd l d).getLsbD k = ((laneMask l).getLsbD k && d.getLsbD (k - laneShift l)) := by
  rw [laneMask_getLsbD]
  simp only [laneOpnd, BitVec.getLsbD_shiftLeft, BitVec.getLsbD_setWidth]
  have hs := laneShift_add_width_le l
  by_cases h1 : laneShift l ≤ k <;> by_cases h2 : k < laneShift l + l.width
  · rw [decide_eq_true (by omega : k < 32), decide_eq_false (by omega : ¬ k < laneShift l),
      decide_eq_true (by omega : k - laneShift l < 32), decide_eq_true (by omega : k - laneShift l < l.width)]
    simp [h1, h2]
  · rw [decide_eq_false (by omega : ¬ k - laneShift l < l.width)]
    simp [h2]
  · rw [decide_eq_true (by omega : k < laneShift l)]
    simp [h1]
  · omega

/-- A read gives the covered lanes, right-justified, and zeros above them (R50, R56). -/
theorem laneRead_getLsbD (l : Lanes) (r : Word) (k : Nat) :
    (laneRead l r).getLsbD k = (decide (k < l.width) && r.getLsbD (laneShift l + k)) := by
  simp only [laneRead, BitVec.getLsbD_setWidth, BitVec.getLsbD_ushiftRight]
  have hw := laneShift_add_width_le l
  by_cases h : k < l.width
  · rw [decide_eq_true (by omega : k < 32)]; simp
  · simp [h]

/-- The operand lies inside the mask (`40_rap.md` R96). -/
theorem laneOpnd_and_laneMask (l : Lanes) (d : Word) : laneOpnd l d &&& laneMask l = laneOpnd l d := by
  apply BitVec.eq_of_getLsbD_eq
  intro k _
  rw [BitVec.getLsbD_and, laneOpnd_getLsbD]
  cases (laneMask l).getLsbD k <;> simp

/-- A word access reads the whole word. -/
@[simp] theorem laneRead_word (r : Word) : laneRead .word r = r := by
  simp [laneRead, laneShift, Lanes.lane, Lanes.width]

end Sys2Proof.Machine
end

