-- ==== Sys2Proof/Laws/State.lean ====
section
/-! SUPPORT. One lemma per field per update of State, and the fetch. -/

namespace Sys2Proof.Machine

namespace State

@[simp] theorem withIcoll_icoll (s : State) (c : Collector) : (s.withIcoll c).icoll = c := rfl
@[simp] theorem withIcoll_input (s : State) (c : Collector) : (s.withIcoll c).input = s.input := rfl
@[simp] theorem withIcoll_response (s : State) (c : Collector) : (s.withIcoll c).response = s.response := rfl
@[simp] theorem withIcoll_diags (s : State) (c : Collector) : (s.withIcoll c).diags = s.diags := rfl

@[simp] theorem respond_icoll (s : State) (r : Response) : (s.respond r).icoll = s.icoll := rfl
@[simp] theorem respond_input (s : State) (r : Response) : (s.respond r).input = s.input := rfl
@[simp] theorem respond_response (s : State) (r : Response) : (s.respond r).response = r := rfl
@[simp] theorem respond_diags (s : State) (r : Response) : (s.respond r).diags = s.diags := rfl

@[simp] theorem raiseDiag_icoll (s : State) (d : Dir) (o : Word) : (s.raiseDiag d o).icoll = s.icoll := rfl
@[simp] theorem raiseDiag_input (s : State) (d : Dir) (o : Word) : (s.raiseDiag d o).input = s.input := rfl
@[simp] theorem raiseDiag_response (s : State) (d : Dir) (o : Word) :
    (s.raiseDiag d o).response = s.response := rfl
@[simp] theorem raiseDiag_diags (s : State) (d : Dir) (o : Word) :
    (s.raiseDiag d o).diags = s.diags ++ [⟨d, o⟩] := rfl

@[simp] theorem withEvent_icoll (s : State) (e : PortEvent) : (s.withEvent e).icoll = s.icoll := rfl
@[simp] theorem withEvent_input (s : State) (e : PortEvent) : (s.withEvent e).input = e :: s.input := rfl
@[simp] theorem withEvent_response (s : State) (e : PortEvent) : (s.withEvent e).response = s.response := rfl
@[simp] theorem withEvent_diags (s : State) (e : PortEvent) : (s.withEvent e).diags = s.diags := rfl

/-- Taking an event: what `fetch` can do. -/
theorem fetch_eq_some {s s' : State} {e : PortEvent} :
    s.fetch = some (e, s') ↔ ∃ rest, s.input = e :: rest ∧ s' = { s with input := rest } := by
  unfold fetch
  split <;> rename_i h
  · simp [h]
  · simp only [Option.some.injEq, Prod.mk.injEq, h, List.cons.injEq]
    constructor
    · rintro ⟨rfl, rfl⟩
      exact ⟨_, ⟨rfl, rfl⟩, rfl⟩
    · rintro ⟨_, ⟨rfl, rfl⟩, rfl⟩
      exact ⟨rfl, rfl⟩

@[simp] theorem fetch_withEvent (s : State) (e : PortEvent) : (s.withEvent e).fetch = some (e, s) := rfl

end State

/-- What a step can do: idle, run the decoded operation of the first event, or refuse it. -/
theorem step_cases (s : State) :
    (s.input = [] ∧ step s = .next s) ∨
    (∃ e rest i, s.input = e :: rest ∧ decode e = .ok i ∧ step s = exec i { s with input := rest }) ∨
    (∃ e rest err, s.input = e :: rest ∧ decode e = .error err ∧ step s = .refused (refusalOf err)) := by
  unfold step State.fetch
  cases h : s.input with
  | nil => simp
  | cons e rest =>
    cases hd : decode e with
    | ok i => exact .inr (.inl ⟨e, rest, i, rfl, hd, by simp [hd]⟩)
    | error err => exact .inr (.inr ⟨e, rest, err, rfl, hd, by simp [hd]⟩)

end Sys2Proof.Machine
end

