-- ==== Sys2Proof/Laws/Ops.lean ====
section
/-! SUPPORT. What each shared operation can do, said once. -/

namespace Sys2Proof.Machine

/-! ### RAP -/

/-- RAP hands back the old value, for every selector (R103). -/
@[simp] theorem rap_fst (old : Word) (sel : Nat) (mask opnd : Word) : (rap old sel mask opnd).1 = old := by
  unfold rap; split <;> rfl

/-- RAP is bitwise: each bit of the new value by `aliasBit` from the same bit of the operands (R105 (8)). -/
theorem rap_snd_getLsbD (old mask opnd : Word) (sel : Sel) (k : Nat) :
    (rap old sel.toNat mask opnd).2.getLsbD k =
      aliasBit sel (old.getLsbD k) (mask.getLsbD k) (opnd.getLsbD k) := by
  have hsel : sel = 0 ∨ sel = 1 ∨ sel = 2 ∨ sel = 3 := by revert sel; decide
  by_cases hk : k < 32
  · rcases hsel with rfl | rfl | rfl | rfl
    · change (old &&& ~~~mask ||| opnd &&& mask).getLsbD k = _
      simp only [aliasBit, BitVec.getLsbD_or, BitVec.getLsbD_and, BitVec.getLsbD_not, hk]
      cases mask.getLsbD k <;> simp
    · change (old ||| opnd &&& mask).getLsbD k = _
      simp [aliasBit, Bool.and_comm]
    · change (old &&& ~~~(opnd &&& mask)).getLsbD k = _
      simp [aliasBit, hk, Bool.and_comm]
    · change (old ^^^ opnd &&& mask).getLsbD k = _
      simp [aliasBit, Bool.and_comm]
  · rw [BitVec.getLsbD_of_ge _ _ (by omega), BitVec.getLsbD_of_ge old k (by omega),
      BitVec.getLsbD_of_ge mask k (by omega), BitVec.getLsbD_of_ge opnd k (by omega)]
    rcases hsel with rfl | rfl | rfl | rfl <;> rfl

/-! ### The scan and arbitration -/

theorem lowestSet_eq_some {c : Word} {k : Nat} :
    lowestSet c = some k ↔ k < 32 ∧ c.getLsbD k = true ∧ ∀ j, j < k → c.getLsbD j = false := by
  simp only [lowestSet, List.find?_range_eq_some, List.mem_range]
  constructor
  · rintro ⟨h, hk, hm⟩
    exact ⟨hk, h, fun j hj => by simpa using hm j hj⟩
  · rintro ⟨hk, h, hm⟩
    exact ⟨h, hk, fun j hj => by simpa using hm j hj⟩

theorem lowestSet_eq_none {c : Word} : lowestSet c = none ↔ ∀ k, c.getLsbD k = false := by
  simp only [lowestSet, List.find?_eq_none, List.mem_range, Bool.not_eq_true]
  exact ⟨fun h k => if hk : k < 32 then h k hk else BitVec.getLsbD_of_ge _ _ (by omega), fun h k _ => h k⟩

theorem toNat_eq_bank_pos (n : Line) : n.toNat = 32 * (bankOf n).toNat + posOf n := by
  rw [bankOf_toNat, posOf_eq]; omega

/-- What a pass finds: the least line that is raised and enabled, or none where no line is (R166, R167). -/
theorem scan_spec (r e : Banks) :
    (∃ n, scan r e = some n.toNat ∧ LeastLine (fun m => lineBit r m = true ∧ lineBit e m = true) n) ∨
    (scan r e = none ∧ ∀ n, ¬ (lineBit r n = true ∧ lineBit e n = true)) := by
  have cand : ∀ n, (lineBit r n = true ∧ lineBit e n = true) ↔
      (bankWord r (bankOf n) &&& bankWord e (bankOf n)).getLsbD (posOf n) = true := by
    intro n; simp [lineBit]
  have found : ∀ (b : Bank) (k : Nat), lowestSet (bankWord r b &&& bankWord e b) = some k →
      (∀ b' : Bank, b'.toNat < b.toNat → lowestSet (bankWord r b' &&& bankWord e b') = none) →
      ∃ n : Line, 32 * b.toNat + k = n.toNat ∧
        LeastLine (fun m => lineBit r m = true ∧ lineBit e m = true) n := by
    intro b k hk hb
    obtain ⟨hk32, hbit, hlow⟩ := lowestSet_eq_some.1 hk
    have hblt := b.isLt
    have hn : (BitVec.ofNat 7 (32 * b.toNat + k)).toNat = 32 * b.toNat + k := by
      rw [BitVec.toNat_ofNat]; omega
    have hbank : bankOf (BitVec.ofNat 7 (32 * b.toNat + k)) = b := by
      apply BitVec.eq_of_toNat_eq; rw [bankOf_toNat, hn]; omega
    have hpos : posOf (BitVec.ofNat 7 (32 * b.toNat + k)) = k := by rw [posOf_eq, hn]; omega
    refine ⟨_, hn.symm, ?_, fun m hm => ?_⟩
    · show lineBit r _ = true ∧ _
      rw [cand, hbank, hpos]; exact hbit
    · have hm' := (cand m).1 hm
      rw [hn, toNat_eq_bank_pos m]
      by_cases hlt : (bankOf m).toNat < b.toNat
      · rw [lowestSet_eq_none.1 (hb _ hlt)] at hm'; cases hm'
      · by_cases heq : (bankOf m).toNat = b.toNat
        · rw [BitVec.eq_of_toNat_eq heq] at hm' ⊢
          by_cases hp : posOf m < k
          · rw [hlow _ hp] at hm'; cases hm'
          · omega
        · omega
  have lt4 : ∀ b : Bank, b = 0#2 ∨ b = 1#2 ∨ b = 2#2 ∨ b = 3#2 := by decide
  unfold scan
  cases h0 : lowestSet (bankWord r 0#2 &&& bankWord e 0#2) with
  | some k =>
    obtain ⟨n, hn, hl⟩ := found 0 k h0 (fun b' hb' => absurd hb' (by simp))
    exact .inl ⟨n, by simp [List.findSome?, h0, ← hn], hl⟩
  | none =>
  cases h1 : lowestSet (bankWord r 1#2 &&& bankWord e 1#2) with
  | some k =>
    obtain ⟨n, hn, hl⟩ := found 1 k h1 (fun b' hb' => by
      rcases lt4 b' with rfl | rfl | rfl | rfl <;> first | exact h0 | exact absurd hb' (by decide))
    exact .inl ⟨n, by simp [List.findSome?, h0, h1, ← hn], hl⟩
  | none =>
  cases h2 : lowestSet (bankWord r 2#2 &&& bankWord e 2#2) with
  | some k =>
    obtain ⟨n, hn, hl⟩ := found 2 k h2 (fun b' hb' => by
      rcases lt4 b' with rfl | rfl | rfl | rfl <;> first | exact h0 | exact h1 | exact absurd hb' (by decide))
    exact .inl ⟨n, by simp [List.findSome?, h0, h1, h2, ← hn], hl⟩
  | none =>
  cases h3 : lowestSet (bankWord r 3#2 &&& bankWord e 3#2) with
  | some k =>
    obtain ⟨n, hn, hl⟩ := found 3 k h3 (fun b' hb' => by
      rcases lt4 b' with rfl | rfl | rfl | rfl <;>
        first | exact h0 | exact h1 | exact h2 | exact absurd hb' (by decide))
    exact .inl ⟨n, by simp [List.findSome?, h0, h1, h2, h3, ← hn], hl⟩
  | none =>
    refine .inr ⟨by simp [List.findSome?, h0, h1, h2, h3], fun n hn => ?_⟩
    have hn' := (cand n).1 hn
    rcases lt4 (bankOf n) with hb | hb | hb | hb <;> rw [hb] at hn'
    · rw [lowestSet_eq_none.1 h0] at hn'; cases hn'
    · rw [lowestSet_eq_none.1 h1] at hn'; cases hn'
    · rw [lowestSet_eq_none.1 h2] at hn'; cases hn'
    · rw [lowestSet_eq_none.1 h3] at hn'; cases hn'

/-- What arbitration can do: select the least FIQ candidate; else the least IRQ candidate; else drop both
outputs and keep VECTOR. -/
theorem arbitrate_cases (c : Collector) :
    (∃ n, LeastLine c.FiqCandidate n ∧
      arbitrate c = { c with vector := BitVec.ofNat 32 n.toNat, fiqOut := true, irqOut := false }) ∨
    ((∀ n, ¬ c.FiqCandidate n) ∧ ∃ n, LeastLine c.IrqCandidate n ∧
      arbitrate c = { c with vector := BitVec.ofNat 32 n.toNat, irqOut := true, fiqOut := false }) ∨
    ((∀ n, ¬ c.FiqCandidate n) ∧ (∀ n, ¬ c.IrqCandidate n) ∧
      arbitrate c = { c with irqOut := false, fiqOut := false }) := by
  rcases scan_spec c.raised c.fiqen with ⟨n, hs, hl⟩ | ⟨hs, hn⟩
  · exact .inl ⟨n, hl, by simp only [arbitrate, hs]⟩
  · rcases scan_spec c.raised c.irqen with ⟨m, hs', hl⟩ | ⟨hs', hm⟩
    · exact .inr (.inl ⟨hn, m, hl, by simp only [arbitrate, hs, hs']⟩)
    · exact .inr (.inr ⟨hn, hm, by simp only [arbitrate, hs, hs']⟩)

/-- The least line with a property is unique. -/
theorem LeastLine.unique {p : Line → Prop} {m n : Line} (hm : LeastLine p m) (hn : LeastLine p n) : m = n :=
  BitVec.eq_of_toNat_eq (Nat.le_antisymm (hm.2 n hn.1) (hn.2 m hm.1))

/-! Arbitration writes VECTOR and the outputs and nothing else (R166). -/

@[simp] theorem arbitrate_raised (c : Collector) : (arbitrate c).raised = c.raised := by
  rcases arbitrate_cases c with ⟨_, _, h⟩ | ⟨_, _, _, h⟩ | ⟨_, _, h⟩ <;> rw [h]
@[simp] theorem arbitrate_irqen (c : Collector) : (arbitrate c).irqen = c.irqen := by
  rcases arbitrate_cases c with ⟨_, _, h⟩ | ⟨_, _, _, h⟩ | ⟨_, _, h⟩ <;> rw [h]
@[simp] theorem arbitrate_fiqen (c : Collector) : (arbitrate c).fiqen = c.fiqen := by
  rcases arbitrate_cases c with ⟨_, _, h⟩ | ⟨_, _, _, h⟩ | ⟨_, _, h⟩ <;> rw [h]
@[simp] theorem arbitrate_intctl (c : Collector) : (arbitrate c).intctl = c.intctl := by
  rcases arbitrate_cases c with ⟨_, _, h⟩ | ⟨_, _, _, h⟩ | ⟨_, _, h⟩ <;> rw [h]
@[simp] theorem arbitrate_levelack (c : Collector) : (arbitrate c).levelack = c.levelack := by
  rcases arbitrate_cases c with ⟨_, _, h⟩ | ⟨_, _, _, h⟩ | ⟨_, _, h⟩ <;> rw [h]
@[simp] theorem arbitrate_ctrl (c : Collector) : (arbitrate c).ctrl = c.ctrl := by
  rcases arbitrate_cases c with ⟨_, _, h⟩ | ⟨_, _, _, h⟩ | ⟨_, _, h⟩ <;> rw [h]

/-! ### The register writes -/

/-- One bit of the low byte of a per-line control register after a write, before the softirq mask (R134). -/
theorem writeIntCtl_newb_getLsbD (c : Collector) (n : Line) (sel : Sel) (mask opnd : Word) (k : Nat) :
    BitVec.getLsbD ((rap ((intctlByte c.intctl n).setWidth 32) sel.toNat mask opnd).2.setWidth 8) k =
      (decide (k < 8) &&
        aliasBit sel ((intctlByte c.intctl n).getLsbD k) (mask.getLsbD k) (opnd.getLsbD k)) := by
  rw [BitVec.getLsbD_setWidth, rap_snd_getLsbD, BitVec.getLsbD_setWidth]
  by_cases hk : k < 8
  · rw [decide_eq_true (by omega : k < 32)]; simp
  · simp [hk]

end Sys2Proof.Machine
end

