-- ==== Sys2Proof/Laws/Exec.lean ====
section
/-! SUPPORT. What each register write and line event does, bit by bit, and what any operation can do to the
collector, said once. -/

namespace Sys2Proof.Machine

/-! ### The operand forms, in the words of the statements -/

@[simp] theorem laneMask_covered (l : Lanes) (k : Nat) : (laneMask l).getLsbD k = coveredBit l k :=
  laneMask_getLsbD l k

@[simp] theorem laneOpnd_operand (l : Lanes) (d : Word) (k : Nat) : (laneOpnd l d).getLsbD k = operandBit l d k := by
  rw [laneOpnd_getLsbD, laneMask_covered]; rfl

/-! ### The register writes -/

/-- Everything a level-acknowledge does before the closing arbitration (`43_acknowledge.md` R151). -/
theorem writeLevelAck_spec (c : Collector) (sel : Sel) (mask opnd : Word) :
    (∀ k, (writeLevelAck c sel.toNat mask opnd).levelack.getLsbD k =
      aliasBit sel (c.levelack.getLsbD k) (mask.getLsbD k) (opnd.getLsbD k)) ∧
    (∀ n, lineBit (writeLevelAck c sel.toNat mask opnd).raised n =
      if n = vecnum c.vector then false else lineBit c.raised n) ∧
    writeLevelAck c sel.toNat mask opnd = { c with
      levelack := (writeLevelAck c sel.toNat mask opnd).levelack
      raised := (writeLevelAck c sel.toNat mask opnd).raised
      vector := vecNone } :=
  ⟨fun _ => rap_snd_getLsbD _ _ _ _ _, fun _ => lineBit_setLineBit _ _ _ _, rfl⟩

/-- Everything a control register write does before the closing arbitration (`42_register_access.md` R131). -/
theorem writeCtrl_spec (c : Collector) (sel : Sel) (mask opnd : Word) :
    (∀ k, (writeCtrl c sel.toNat mask opnd).ctrl.getLsbD k =
      (aliasBit sel (c.ctrl.getLsbD k) (mask.getLsbD k) (opnd.getLsbD k) ||
        (decide (k = 30) && !c.ctrl.getLsbD 31 &&
          aliasBit sel (c.ctrl.getLsbD 31) (mask.getLsbD 31) (opnd.getLsbD 31)))) ∧
    writeCtrl c sel.toNat mask opnd = { c with ctrl := (writeCtrl c sel.toNat mask opnd).ctrl } := by
  refine ⟨fun k => ?_, rfl⟩
  simp only [writeCtrl, rap_fst, forceCompanion_getLsbD, rap_snd_getLsbD]

/-- Everything a per-line control write does before the closing arbitration (`42_register_access.md` R134). -/
theorem writeIntCtl_spec (c : Collector) (n : Line) (sel : Sel) (mask opnd : Word) :
    let c' := writeIntCtl c n sel.toNat mask opnd
    let bit (k : Nat) := aliasBit sel ((intctlByte c.intctl n).getLsbD k) (mask.getLsbD k) (opnd.getLsbD k)
    (∀ k, (intctlByte c'.intctl n).getLsbD k = (decide (k < 8) && bit k && !decide (k = 3))) ∧
    (∀ m, m ≠ n → intctlByte c'.intctl m = intctlByte c.intctl m) ∧
    (∀ m, lineBit c'.irqen m = if m = n then bit 2 else lineBit c.irqen m) ∧
    (∀ m, lineBit c'.fiqen m = if m = n then bit 4 else lineBit c.fiqen m) ∧
    (∀ m, lineBit c'.raised m = (lineBit c.raised m || (decide (m = n) && opnd.getLsbD 3))) ∧
    c' = { c with intctl := c'.intctl, irqen := c'.irqen, fiqen := c'.fiqen, raised := c'.raised } := by
  refine ⟨fun k => ?_, fun m hm => ?_, fun m => ?_, fun m => ?_, fun m => ?_, rfl⟩
  · simp only [writeIntCtl, intctlByte_setIntctlByte, if_true, withoutSoftirq_getLsbD, writeIntCtl_newb_getLsbD]
  · simp only [writeIntCtl, intctlByte_setIntctlByte, if_neg hm]
  · simp only [writeIntCtl, lineBit_setLineBit, writeIntCtl_newb_getLsbD, intctlEnableBit]; simp
  · simp only [writeIntCtl, lineBit_setLineBit, writeIntCtl_newb_getLsbD, intctlEnfiqBit]; simp
  · by_cases h : opnd.getLsbD 3 = true
    · have e : (writeIntCtl c n sel.toNat mask opnd).raised = setLineBit c.raised n true := if_pos h
      rw [e, lineBit_setLineBit, h]
      by_cases hm : m = n <;> simp [hm]
    · have e : (writeIntCtl c n sel.toNat mask opnd).raised = c.raised := if_neg h
      rw [e, Bool.eq_false_iff.2 h]
      simp

/-- The latch after a line event (`41_line_latch.md` R110). -/
@[simp] theorem lineBit_setLine (c : Collector) (n m : Line) (level : Bool) :
    lineBit (setLine c n level).raised m = if m = n then level else lineBit c.raised m := by
  simp only [setLine, arbitrate_raised, lineBit_setLineBit]

/-! ### The alias groups: one equation for four operations -/

theorem sel_cases (sel : Sel) : sel = 0 ∨ sel = 1 ∨ sel = 2 ∨ sel = 3 := by revert sel; decide

theorem exec_ackWrite (sel : Sel) (l : Lanes) (d : Word) (s : State) :
    exec (ackWrite sel l d) s =
      completeWrite s (writeLevelAck s.icoll sel.toNat (laneMask l) (laneOpnd l d)) := by
  rcases sel_cases sel with rfl | rfl | rfl | rfl <;> rfl

theorem exec_ctrlWrite (sel : Sel) (l : Lanes) (d : Word) (s : State) :
    exec (ctrlWrite sel l d) s = completeWrite s (writeCtrl s.icoll sel.toNat (laneMask l) (laneOpnd l d)) := by
  rcases sel_cases sel with rfl | rfl | rfl | rfl <;> rfl

theorem exec_lineWrite (n : Line) (sel : Sel) (l : Lanes) (d : Word) (s : State) :
    exec (lineWrite n sel l d) s =
      completeWrite s (writeIntCtl s.icoll n sel.toNat (laneMask l) (laneOpnd l d)) := by
  rcases sel_cases sel with rfl | rfl | rfl | rfl <;> rfl

/-! ### What any operation can do to the collector -/

/-- The collector after an operation: as before; arbitrated; after a line event, an acknowledge, a control
register write, a per-line control write; or reset. -/
theorem exec_cases {i : Instr} {s t : State} (h : exec i s = .next t) :
    t.icoll = s.icoll ∨ t.icoll = arbitrate s.icoll ∨
    (∃ n level, i = (if level then .lineAssert n else .lineDeassert n) ∧ t.icoll = setLine s.icoll n level) ∨
    (∃ sel l d, i = ackWrite sel l d ∧
      t.icoll = arbitrate (writeLevelAck s.icoll sel.toNat (laneMask l) (laneOpnd l d))) ∨
    (∃ sel l d, i = ctrlWrite sel l d ∧
      t.icoll = arbitrate (writeCtrl s.icoll sel.toNat (laneMask l) (laneOpnd l d))) ∨
    (∃ n sel l d, i = lineWrite n sel l d ∧
      t.icoll = arbitrate (writeIntCtl s.icoll n sel.toNat (laneMask l) (laneOpnd l d))) ∨
    (i = .reset ∧ t.icoll = Collector.reset) := by
  cases i with
  | rdVector | rdLevelack | rdCtrl | rdRaised | rdRaw | rdIntctl | rdUndef | rap => cases h; exact .inl rfl
  | wrVector | wrRaised | wrRaw | wrUndef | arbitrate => cases h; exact .inr (.inl rfl)
  | lineAssert n => cases h; exact .inr (.inr (.inl ⟨n, true, rfl, rfl⟩))
  | lineDeassert n => cases h; exact .inr (.inr (.inl ⟨n, false, rfl, rfl⟩))
  | wrLevelackDir l d => cases h; exact .inr (.inr (.inr (.inl ⟨0, l, d, rfl, rfl⟩)))
  | wrLevelackSet l d => cases h; exact .inr (.inr (.inr (.inl ⟨1, l, d, rfl, rfl⟩)))
  | wrLevelackClr l d => cases h; exact .inr (.inr (.inr (.inl ⟨2, l, d, rfl, rfl⟩)))
  | wrLevelackTog l d => cases h; exact .inr (.inr (.inr (.inl ⟨3, l, d, rfl, rfl⟩)))
  | wrCtrlDir l d => cases h; exact .inr (.inr (.inr (.inr (.inl ⟨0, l, d, rfl, rfl⟩))))
  | wrCtrlSet l d => cases h; exact .inr (.inr (.inr (.inr (.inl ⟨1, l, d, rfl, rfl⟩))))
  | wrCtrlClr l d => cases h; exact .inr (.inr (.inr (.inr (.inl ⟨2, l, d, rfl, rfl⟩))))
  | wrCtrlTog l d => cases h; exact .inr (.inr (.inr (.inr (.inl ⟨3, l, d, rfl, rfl⟩))))
  | wrIntctlDir n l d => cases h; exact .inr (.inr (.inr (.inr (.inr (.inl ⟨n, 0, l, d, rfl, rfl⟩)))))
  | wrIntctlSet n l d => cases h; exact .inr (.inr (.inr (.inr (.inr (.inl ⟨n, 1, l, d, rfl, rfl⟩)))))
  | wrIntctlClr n l d => cases h; exact .inr (.inr (.inr (.inr (.inr (.inl ⟨n, 2, l, d, rfl, rfl⟩)))))
  | wrIntctlTog n l d => cases h; exact .inr (.inr (.inr (.inr (.inr (.inl ⟨n, 3, l, d, rfl, rfl⟩)))))
  | reset => cases h; exact .inr (.inr (.inr (.inr (.inr (.inr ⟨rfl, rfl⟩)))))

end Sys2Proof.Machine
end

