-- ==== Sys2Proof/Laws/Inv.lean ====
section
/-! SUPPORT. What the invariants of reachable states rest on. -/

namespace Sys2Proof.Machine

/-- INV4, INV5 and INV6 of `10_state.md` R43 follow from INV7: a fixed point of arbitration drives its outputs
and its vector by its candidates. -/
theorem Collector.inv_of_fixed_point {c : Collector}
    (enables : ∀ n, lineBit c.irqen n = (intctlByte c.intctl n).getLsbD 2 ∧
      lineBit c.fiqen n = (intctlByte c.intctl n).getLsbD 4)
    (softirq : ∀ n, (intctlByte c.intctl n).getLsbD 3 = false)
    (vector : c.vector.toNat < 128) (fixed : arbitrate c = c) : c.Inv := by
  have high : ∀ k, 7 ≤ k → c.vector.getLsbD k = false := fun k hk =>
    Nat.testBit_lt_two_pow (lt_of_lt_of_le vector (Nat.pow_le_pow_right (n := 2) (by decide) hk))
  rcases arbitrate_cases c with ⟨n, hn, e⟩ | ⟨hf, n, hn, e⟩ | ⟨hf, hi, e⟩ <;> rw [fixed] at e
  · have hv : vecnum c.vector = n := by rw [congrArg Collector.vector e]; exact vecnum_ofNat n
    have hq : c.fiqOut = true := congrArg Collector.fiqOut e
    have hr : c.irqOut = false := congrArg Collector.irqOut e
    exact ⟨enables, softirq, high, by simpa [hq] using ⟨n, hn.1⟩,
      by rw [hr]; exact ⟨nofun, fun h => absurd ⟨n, hn.1⟩ h.1⟩, by simp [hr],
      fun _ => hv ▸ hn, by simp [hr], fixed⟩
  · have hv : vecnum c.vector = n := by rw [congrArg Collector.vector e]; exact vecnum_ofNat n
    have hq : c.fiqOut = false := congrArg Collector.fiqOut e
    have hr : c.irqOut = true := congrArg Collector.irqOut e
    exact ⟨enables, softirq, high, by rw [hq]; exact ⟨nofun, fun ⟨m, hm⟩ => absurd hm (hf m)⟩,
      by rw [hr]; exact ⟨fun _ => ⟨fun ⟨m, hm⟩ => hf m hm, n, hn.1⟩, fun _ => rfl⟩, by simp [hq],
      by simp [hq], fun _ => hv ▸ hn, fixed⟩
  · have hq : c.fiqOut = false := congrArg Collector.fiqOut e
    have hr : c.irqOut = false := congrArg Collector.irqOut e
    exact ⟨enables, softirq, high, by rw [hq]; exact ⟨nofun, fun ⟨m, hm⟩ => absurd hm (hf m)⟩,
      by rw [hr]; exact ⟨nofun, fun ⟨_, m, hm⟩ => absurd hm (hi m)⟩, by simp [hr],
      by simp [hq], by simp [hr], fixed⟩

end Sys2Proof.Machine
end

