-- ==== Sys2Proof/Laws/PerInstr.lean ====
section
/-! SUPPORT. A law of every operation as syntax: its encoding is a legal port event. -/

namespace Sys2Proof.Laws

/-- The lane an operation encodes is legal for its width (`20_memory.md` R54). -/
theorem legalAccess_mkOff (u : UnitNo) (s : Sel) (l : Lanes) :
    Machine.legalAccess (mkOff u s l.lane) l.width = true := by
  have h : (mkOff u s l.lane).toNat % 4 = l.lane.toNat := by
    have e := congrArg BitVec.toNat (laneOf_mkOff u s l.lane)
    simpa [laneOf, BitVec.extractLsb'_toNat] using e
  rcases l with b | u | _
  · rfl
  · cases u
    · have h : (mkOff _ s (Lanes.half false).lane).toNat % 4 = 0 := h
      simp [Machine.legalAccess, Lanes.width]; omega
    · have h : (mkOff _ s (Lanes.half true).lane).toNat % 4 = 2 := h
      simp [Machine.legalAccess, Lanes.width]; omega
  · have h : (mkOff u s Lanes.word.lane).toNat % 4 = 0 := h
    simp [Machine.legalAccess, Lanes.width]; omega

theorem legalEvent_brEvent (u : UnitNo) (s : Sel) (l : Lanes) :
    ∀ e, some (brEvent u s l) = some e → Machine.legalEvent e = true := by
  rintro _ ⟨⟩; exact legalAccess_mkOff u s l

theorem legalEvent_bwEvent (u : UnitNo) (s : Sel) (l : Lanes) (d : Word) :
    ∀ e, some (bwEvent u s l d) = some e → Machine.legalEvent e = true := by
  rintro _ ⟨⟩; exact legalAccess_mkOff u s l

namespace EncodingIsLegal

/-- The event of an operation, if it has one, is none of the refused encodings of `30_encoding.md` R87. -/
def Statement (i : Instr) : Prop := ∀ e, encode i = some e → Machine.legalEvent e = true

theorem rdVector (sel : Sel) (lanes : Lanes) : Statement (.rdVector sel lanes) := legalEvent_brEvent _ _ _
theorem rdLevelack (sel : Sel) (lanes : Lanes) : Statement (.rdLevelack sel lanes) := legalEvent_brEvent _ _ _
theorem rdCtrl (sel : Sel) (lanes : Lanes) : Statement (.rdCtrl sel lanes) := legalEvent_brEvent _ _ _
theorem rdRaised (bank : Bank) (sel : Sel) (lanes : Lanes) : Statement (.rdRaised bank sel lanes) :=
  legalEvent_brEvent _ _ _
theorem rdRaw (bank : Bank) (sel : Sel) (lanes : Lanes) : Statement (.rdRaw bank sel lanes) :=
  legalEvent_brEvent _ _ _
theorem rdIntctl (line : Line) (sel : Sel) (lanes : Lanes) : Statement (.rdIntctl line sel lanes) :=
  legalEvent_brEvent _ _ _
theorem rdUndef (unit : UnitNo) (sel : Sel) (lanes : Lanes) : Statement (.rdUndef unit sel lanes) :=
  legalEvent_brEvent _ _ _
theorem wrVector (sel : Sel) (lanes : Lanes) (data : Word) : Statement (.wrVector sel lanes data) :=
  legalEvent_bwEvent _ _ _ _
theorem wrLevelackDir (lanes : Lanes) (data : Word) : Statement (.wrLevelackDir lanes data) :=
  legalEvent_bwEvent _ _ _ _
theorem wrLevelackSet (lanes : Lanes) (data : Word) : Statement (.wrLevelackSet lanes data) :=
  legalEvent_bwEvent _ _ _ _
theorem wrLevelackClr (lanes : Lanes) (data : Word) : Statement (.wrLevelackClr lanes data) :=
  legalEvent_bwEvent _ _ _ _
theorem wrLevelackTog (lanes : Lanes) (data : Word) : Statement (.wrLevelackTog lanes data) :=
  legalEvent_bwEvent _ _ _ _
theorem wrCtrlDir (lanes : Lanes) (data : Word) : Statement (.wrCtrlDir lanes data) :=
  legalEvent_bwEvent _ _ _ _
theorem wrCtrlSet (lanes : Lanes) (data : Word) : Statement (.wrCtrlSet lanes data) :=
  legalEvent_bwEvent _ _ _ _
theorem wrCtrlClr (lanes : Lanes) (data : Word) : Statement (.wrCtrlClr lanes data) :=
  legalEvent_bwEvent _ _ _ _
theorem wrCtrlTog (lanes : Lanes) (data : Word) : Statement (.wrCtrlTog lanes data) :=
  legalEvent_bwEvent _ _ _ _
theorem wrRaised (bank : Bank) (sel : Sel) (lanes : Lanes) (data : Word) : Statement (.wrRaised bank sel lanes data) :=
  legalEvent_bwEvent _ _ _ _
theorem wrRaw (bank : Bank) (sel : Sel) (lanes : Lanes) (data : Word) : Statement (.wrRaw bank sel lanes data) :=
  legalEvent_bwEvent _ _ _ _
theorem wrIntctlDir (line : Line) (lanes : Lanes) (data : Word) : Statement (.wrIntctlDir line lanes data) :=
  legalEvent_bwEvent _ _ _ _
theorem wrIntctlSet (line : Line) (lanes : Lanes) (data : Word) : Statement (.wrIntctlSet line lanes data) :=
  legalEvent_bwEvent _ _ _ _
theorem wrIntctlClr (line : Line) (lanes : Lanes) (data : Word) : Statement (.wrIntctlClr line lanes data) :=
  legalEvent_bwEvent _ _ _ _
theorem wrIntctlTog (line : Line) (lanes : Lanes) (data : Word) : Statement (.wrIntctlTog line lanes data) :=
  legalEvent_bwEvent _ _ _ _
theorem wrUndef (unit : UnitNo) (sel : Sel) (lanes : Lanes) (data : Word) : Statement (.wrUndef unit sel lanes data) :=
  legalEvent_bwEvent _ _ _ _
theorem lineAssert (line : Line) : Statement (.lineAssert line) := by rintro _ ⟨⟩; rfl
theorem lineDeassert (line : Line) : Statement (.lineDeassert line) := by rintro _ ⟨⟩; rfl
theorem reset : Statement .reset := by rintro _ ⟨⟩; rfl
theorem rap (old : Word) (sel : Nat) (mask : Word) (opnd : Word) : Statement (.rap old sel mask opnd) :=
  by rintro _ ⟨⟩
theorem arbitrate : Statement .arbitrate := by rintro _ ⟨⟩

end EncodingIsLegal

end Sys2Proof.Laws
end

