-- ==== Sys2Proof/Tests/Slice0.lean ====
section
/-! SUPPORT. The model's own tests. Expected values come from `95_test_vectors.md` (E<n>, P<n>) and
`96_test_vectors_derived.md` (T-...). The witnesses at the end meet the hypotheses of the statements. -/

namespace Sys2Proof.Tests

open Sys2Proof.Machine

/-! ### Small collectors -/

/-- The collector with the control byte of a line, and the enables that INV1 gives it. -/
def enabled (line : Line) (byte : Byte) (c : Collector) : Collector :=
  { c with
    intctl := setIntctlByte c.intctl line byte
    irqen := setLineBit c.irqen line (byte.getLsbD 2)
    fiqen := setLineBit c.fiqen line (byte.getLsbD 4) }

/-- The collector with a line pending. -/
def pending (line : Line) (c : Collector) : Collector :=
  { c with raised := setLineBit c.raised line true }

/-- The collector presenting a line as IRQ. -/
def irqAt (line : Line) (c : Collector) : Collector :=
  { c with vector := BitVec.ofNat 32 line.toNat, irqOut := true, fiqOut := false }

/-- The collector presenting a line as FIQ. -/
def fiqAt (line : Line) (c : Collector) : Collector :=
  { c with vector := BitVec.ofNat 32 line.toNat, irqOut := false, fiqOut := true }

/-- The collector with the index of a line in VECTOR and both outputs 0. -/
def staleAt (line : Line) (c : Collector) : Collector :=
  { c with vector := BitVec.ofNat 32 line.toNat, irqOut := false, fiqOut := false }

/-- A machine around a collector. -/
def around (c : Collector) : State := { State.reset with icoll := c }

/-- The state after one step on one event. -/
def after (c : Collector) (e : PortEvent) : Option State :=
  match step ((around c).withEvent e) with
  | .next t => some t
  | .fault _ => none
  | .refused _ => none

/-- VECTOR, IRQ_OUT and FIQ_OUT after one event. -/
def service (c : Collector) (e : PortEvent) : Option (Word × Bool × Bool) :=
  (after c e).map fun t => (t.icoll.vector, t.icoll.irqOut, t.icoll.fiqOut)

/-- What one event hands back, and the diagnostics it emits. -/
def handed (c : Collector) (e : PortEvent) : Option (Response × List Diag) :=
  (after c e).map fun t => (t.response, t.diags)

/-- The words of a bank array, bank 0 first. -/
def words (x : Banks) : List Word := [bankWord x 0, bankWord x 1, bankWord x 2, bankWord x 3]

/-- The collector of T-RD: reads of every register. -/
def readable : Collector :=
  { fiqAt 100 (pending 39 (pending 7 (pending 100 (enabled 100 0xF7 Collector.reset)))) with
    levelack := 0xDEADBEEF, ctrl := 0xC0A5005A }

/-- Line 5 presented as IRQ (P1). -/
def irq5 : Collector := irqAt 5 (pending 5 (enabled 5 0x04 Collector.reset))

/-- Lines 5 (IRQ) and 70 (FIQ) pending (E3). -/
def fiq70 : Collector := fiqAt 70 (pending 70 (pending 5 (enabled 70 0x10 (enabled 5 0x04 Collector.reset))))

/-- Lines 40 and 12 pending, both IRQ (E4). -/
def irq12 : Collector := irqAt 12 (pending 12 (pending 40 (enabled 12 0x04 (enabled 40 0x04 Collector.reset))))

/-- Line 8 presented as IRQ (T-ACK-1). -/
def irq8 : Collector := irqAt 8 (pending 8 (enabled 8 0x04 Collector.reset))

/-! ### WellFormed: an ill-formed term for each check -/

theorem test_wf_rdUndef : (Instr.rdUndef 0x2 0 .word).wellFormed = false := by decide
theorem test_wf_wrUndef : (Instr.wrUndef 0x91 0 .word 0).wellFormed = false := by decide
theorem test_wf_rap_selector : (Instr.rap 0 4 0 0).wellFormed = false := by decide
theorem test_wf_rap_operand : (Instr.rap 0 0 0xFF 0x100).wellFormed = false := by decide
theorem test_wf_accepts : (Instr.rdUndef 0x92 3 (.half true)).wellFormed = true ∧
    (Instr.rap 5 3 0xFF 0xFF).wellFormed = true := by decide

/-! ### Decode: a word written out from the encoding of each row

The offsets are those of T-DEC, T-RD, T-WRO, T-CTL, T-ICT and T-ACK, or written out as `unit ++ sel ++ lane` by
`30_encoding.md` R76. -/

theorem test_decode_rdVector : decode (.br 0x00C 32) = .ok (.rdVector 3 .word) := rfl
theorem test_decode_rdLevelack : decode (.br 0x01B 8) = .ok (.rdLevelack 2 (.byte 3)) := rfl
theorem test_decode_rdCtrl : decode (.br 0x022 16) = .ok (.rdCtrl 0 (.half true)) := rfl
theorem test_decode_rdRaised : decode (.br 0x07C 32) = .ok (.rdRaised 3 3 .word) := rfl
theorem test_decode_rdRaw : decode (.br 0x0D4 32) = .ok (.rdRaw 3 1 .word) := rfl
theorem test_decode_rdIntctl : decode (.br 0x91C 32) = .ok (.rdIntctl 127 3 .word) := rfl
theorem test_decode_rdUndef : decode (.br 0x11C 32) = .ok (.rdUndef 0x11 3 .word) := rfl
theorem test_decode_wrVector : decode (.bw 0x00B 8 0xFF) = .ok (.wrVector 2 (.byte 3) 0xFF) := rfl
theorem test_decode_wrLevelackDir : decode (.bw 0x010 32 1) = .ok (.wrLevelackDir .word 1) := rfl
theorem test_decode_wrLevelackSet : decode (.bw 0x014 32 0xF) = .ok (.wrLevelackSet .word 0xF) := rfl
theorem test_decode_wrLevelackClr : decode (.bw 0x01B 8 0xAA) = .ok (.wrLevelackClr (.byte 3) 0xAA) := rfl
theorem test_decode_wrLevelackTog : decode (.bw 0x01C 16 7) = .ok (.wrLevelackTog (.half false) 7) := rfl
theorem test_decode_wrCtrlDir : decode (.bw 0x023 8 0x80) = .ok (.wrCtrlDir (.byte 3) 0x80) := rfl
theorem test_decode_wrCtrlSet : decode (.bw 0x026 16 0x8000) = .ok (.wrCtrlSet (.half true) 0x8000) := rfl
theorem test_decode_wrCtrlClr : decode (.bw 0x028 32 3) = .ok (.wrCtrlClr .word 3) := rfl
theorem test_decode_wrCtrlTog : decode (.bw 0x02F 8 9) = .ok (.wrCtrlTog (.byte 3) 9) := rfl
theorem test_decode_wrRaised : decode (.bw 0x074 32 0x10) = .ok (.wrRaised 3 1 .word 0x10) := rfl
theorem test_decode_wrRaw : decode (.bw 0x0DC 32 1) = .ok (.wrRaw 3 3 .word 1) := rfl
theorem test_decode_wrIntctlDir : decode (.bw 0x580 8 0x10) = .ok (.wrIntctlDir 70 (.byte 0) 0x10) := rfl
theorem test_decode_wrIntctlSet : decode (.bw 0x124 8 4) = .ok (.wrIntctlSet 0 (.byte 0) 4) := rfl
theorem test_decode_wrIntctlClr : decode (.bw 0x12A 16 0xC) = .ok (.wrIntctlClr 0 (.half true) 0xC) := rfl
theorem test_decode_wrIntctlTog : decode (.bw 0x91C 8 4) = .ok (.wrIntctlTog 127 (.byte 0) 4) := rfl
theorem test_decode_wrUndef : decode (.bw 0x10020 32 1) = .ok (.wrUndef 0x1002 0 .word 1) := rfl
theorem test_decode_lineAssert : decode (.ln 127 true) = .ok (.lineAssert 127) := rfl
theorem test_decode_lineDeassert : decode (.ln 64 false) = .ok (.lineDeassert 64) := rfl
theorem test_decode_reset : decode .rs = .ok .reset := rfl

/-- The internal functions have no encoding (R83). -/
theorem test_encode_internal : encode (.rap 0 0 0 0) = none ∧ encode .arbitrate = none := ⟨rfl, rfl⟩

/-- The legality paragraph of section 2.1. -/
theorem test_decode_refuses :
    decode (.bw 0x021 16 0) = .error (.misaligned 0x021 16) ∧
    decode (.bw 0x023 16 0) = .error (.misaligned 0x023 16) ∧
    decode (.bw 0x022 32 0) = .error (.misaligned 0x022 32) ∧
    decode (.br 0x001 32) = .error (.misaligned 0x001 32) ∧
    decode (.br 0x000 64) = .error (.malformedWidth 64) ∧
    decode (.bw 0x000 0 0) = .error (.malformedWidth 0) := ⟨rfl, rfl, rfl, rfl, rfl, rfl⟩

/-- Table words (log 2): a write row, a line row, the reset row. -/
theorem test_table_words :
    decodeTableWord 32 0x014 = some (.wrLevelackSet (.byte 0) 0) ∧
    decodeTableWord 8 0x8D = some (.lineAssert 70) ∧
    decodeTableWord 8 0x8C = some (.lineDeassert 70) ∧
    decodeTableWord 0 0 = some .reset := by decide

/-- A read among the 67-bit records: direction 1, width code 2, `off` 0x040. -/
theorem test_table_read : decodeTableWord 72 (0x6 * 2 ^ 64 + 0x040) = some (.rdRaised 0 0 .word) := by decide

/-! ### RAP (section 2.2, E1) -/

theorem test_rap_word :
    rap 0x12345678 0 0xFFFFFFFF 0x0F0F00FF = (0x12345678, 0x0F0F00FF) ∧
    rap 0x12345678 1 0xFFFFFFFF 0x0F0F00FF = (0x12345678, 0x1F3F56FF) ∧
    rap 0x12345678 2 0xFFFFFFFF 0x0F0F00FF = (0x12345678, 0x10305600) ∧
    rap 0x12345678 3 0xFFFFFFFF 0x0F0F00FF = (0x12345678, 0x1D3B5687) := by decide

/-- T-RAP-3, 6, 10, 18 and 19: the mask and the operand come from the width, the lane and the datum. -/
theorem test_rap_lanes :
    (rap 0xFFFFFFFF 0 (laneMask (.byte 2)) (laneOpnd (.byte 2) 0)).2 = 0xFF00FFFF ∧
    (rap 0x12345678 1 (laneMask (.half true)) (laneOpnd (.half true) 0x8001)).2 = 0x92355678 ∧
    (rap 0x12345678 2 (laneMask (.byte 1)) (laneOpnd (.byte 1) 0x56)).2 = 0x12340078 ∧
    (rap 0x12345678 0 (laneMask (.byte 1)) (laneOpnd (.byte 1) 0x1FF)).2 = 0x1234FF78 ∧
    (rap 0 1 (laneMask (.half false)) (laneOpnd (.half false) 0x12345)).2 = 0x2345 := by decide

/-- RAP as an operation hands back its pair (E1, clear). -/
theorem test_rap_operation : exec (.rap 0x12345678 2 0xFFFFFFFF 0x0F0F00FF) State.reset =
    .next { State.reset with response := .rapPair 0x12345678 0x10305600 } := rfl

/-! ### Reads (section 2.4) -/

theorem test_rdVector : handed readable (.br 0x000 32) = some (.readData 0x64, []) := by decide
theorem test_rdVector_lane : handed readable (.br 0x001 8) = some (.readData 0, []) := by decide
theorem test_rdLevelack : handed readable (.br 0x012 16) = some (.readData 0xDEAD, []) := by decide
theorem test_rdCtrl : handed readable (.br 0x02C 32) = some (.readData 0xC0A5005A, []) := by decide
theorem test_rdRaised : handed readable (.br 0x070 32) = some (.readData 0x10, []) := by decide
theorem test_rdRaised_other : handed readable (.br 0x050 32) = some (.readData 0x80, []) := by decide
theorem test_rdRaw : handed readable (.br 0x0D8 32) = some (.readData 0x10, []) := by decide
theorem test_rdIntctl : handed readable (.br 0x76C 32) = some (.readData 0xF7, []) := by decide
theorem test_rdIntctl_lane : handed readable (.br 0x761 8) = some (.readData 0, []) := by decide
theorem test_rdUndef : handed readable (.br 0x0E0 16) = some (.readData 0, [⟨.read, 0x0E0⟩]) := by decide

/-! ### Discarded writes (section 2.5) -/

theorem test_wrVector : service readable (.bw 0x004 32 0xFFFFFFFF) = some (0x64, false, true) := by decide
/-- T-WRO-5: the clear alias does not clear RAISED0. -/
theorem test_wrRaised : (after readable (.bw 0x048 32 0xFFFFFFFF)).map (words ·.icoll.raised) =
    some [0x80, 0x80, 0, 0x10] := by decide
theorem test_wrRaw : (after readable (.bw 0x0A0 32 0)).map (words ·.icoll.raised) =
    some [0x80, 0x80, 0, 0x10] := by decide
theorem test_wrUndef : handed readable (.bw 0x08C 8 0xFF) = some (.nothing, [⟨.write, 0x08C⟩]) := by decide

/-! ### The control register (section 2.6) -/

/-- CTRL after a write over a value. -/
def ctrlAfter (ctrl : Word) (e : PortEvent) : Option Word :=
  (after { Collector.reset with ctrl } e).map (·.icoll.ctrl)

/-- T-CTL-2 and T-CTL-9. -/
theorem test_wrCtrlDir : ctrlAfter 1 (.bw 0x020 32 0x80000001) = some 0xC0000001 ∧
    ctrlAfter 0xC0000001 (.bw 0x020 32 0x40000000) = some 0x40000000 := by decide
/-- T-CTL-4 and T-CTL-14: no edge, an edge. -/
theorem test_wrCtrlSet : ctrlAfter 0x80000001 (.bw 0x024 32 0x80000000) = some 0x80000001 ∧
    ctrlAfter 0 (.bw 0x026 16 0x8000) = some 0xC0000000 := by decide
/-- T-CTL-3 and T-CTL-16. -/
theorem test_wrCtrlClr : ctrlAfter 0xC0000001 (.bw 0x028 32 0x40000000) = some 0x80000001 ∧
    ctrlAfter 0 (.bw 0x028 32 0xC0000000) = some 0 := by decide
/-- T-CTL-7 and T-CTL-8. -/
theorem test_wrCtrlTog : ctrlAfter 0xC0000001 (.bw 0x02C 32 0x80000000) = some 0x40000001 ∧
    ctrlAfter 0x40000001 (.bw 0x02C 32 0x80000000) = some 0xC0000001 := by decide

/-! ### Per-line control, on line 20 (section 2.7) -/

/-- INTCTL, IRQEN, FIQEN, RAISED of line 20 after one event. -/
def line20 (c : Collector) (e : PortEvent) : Option (Byte × Bool × Bool × Bool) :=
  (after c e).map fun t => (intctlByte t.icoll.intctl 20, lineBit t.icoll.irqen 20, lineBit t.icoll.fiqen 20,
    lineBit t.icoll.raised 20)

/-- T-ICT-8: a word write, the softirq bit not stored; T-ICT-10: a write of lane 1. -/
theorem test_wrIntctlDir :
    line20 Collector.reset (.bw 0x260 32 0xFFFFFFFF) = some (0xF7, true, true, true) ∧
    service Collector.reset (.bw 0x260 32 0xFFFFFFFF) = some (0x14, false, true) ∧
    line20 Collector.reset (.bw 0x261 8 0x0C) = some (0, false, false, false) := by decide
/-- T-ICT-12. -/
theorem test_wrIntctlSet :
    line20 (enabled 20 4 Collector.reset) (.bw 0x264 8 0x08) = some (0x04, true, false, true) ∧
    service (enabled 20 4 Collector.reset) (.bw 0x264 8 0x08) = some (0x14, true, false) := by decide
/-- T-ICT-14: the clear alias injects. -/
theorem test_wrIntctlClr :
    line20 (enabled 20 4 Collector.reset) (.bw 0x268 8 0x08) = some (0x04, true, false, true) := by decide
/-- T-ICT-18: disabled while pending. -/
theorem test_wrIntctlClr_pending :
    service (irqAt 20 (pending 20 (enabled 20 4 Collector.reset))) (.bw 0x268 8 0x04) =
      some (0x14, false, false) := by decide
/-- T-ICT-16. -/
theorem test_wrIntctlTog :
    line20 (enabled 20 4 Collector.reset) (.bw 0x26C 8 0x14) = some (0x10, false, true, false) := by decide
/-- Line 127: the vector equals the sentinel, with IRQ_OUT 1. -/
theorem test_wrIntctlDir_last : service Collector.reset (.bw 0x910 8 0x0C) = some (0x7F, true, false) := by decide

/-! ### Acknowledge (section 2.8, E5) -/

/-- T-ACK-1, and E5 event 1: the next line in the same write. -/
theorem test_wrLevelackDir : service irq8 (.bw 0x010 32 1) = some (0x7F, false, false) ∧
    service irq12 (.bw 0x010 32 1) = some (0x28, true, false) := by decide
/-- T-ACK-10: a stale vector. -/
theorem test_wrLevelackDir_stale :
    (after (staleAt 8 (pending 8 Collector.reset)) (.bw 0x010 32 1)).map (words ·.icoll.raised) =
      some [0, 0, 0, 0] := by decide
/-- T-ACK-3: the storage word follows RAP. -/
theorem test_wrLevelackSet :
    (after irq8 (.bw 0x014 32 0xF)).map (fun t => (t.icoll.levelack, words t.icoll.raised)) =
      some (0xF, [0, 0, 0, 0]) := by decide
/-- T-ACK-4. -/
theorem test_wrLevelackClr : service irq8 (.bw 0x01B 8 0xAA) = some (0x7F, false, false) := by decide
/-- R152 on T-ACK-8: line 127 is lost. -/
theorem test_wrLevelackTog :
    (after (pending 127 Collector.reset) (.bw 0x01C 32 1)).map (fun t => (t.icoll.levelack, words t.icoll.raised)) =
      some (1, [0, 0, 0, 0]) := by decide

/-! ### Line events (section 2.3, E3) -/

/-- E3 event 4, and T-LINE-4. -/
theorem test_lineAssert : service (enabled 70 0x10 irq5) (.ln 70 true) = some (0x46, false, true) ∧
    (after Collector.reset (.ln 127 true)).map (words ·.icoll.raised) = some [0, 0, 0, 0x80000000] := by decide
/-- T-LINE-8. -/
theorem test_lineDeassert :
    service (irqAt 64 (pending 64 (enabled 64 4 Collector.reset))) (.ln 64 false) = some (0x40, false, false) := by
  decide

/-! ### Arbitration (section 2.9) -/

/-- The function of section 2.9, through the operation. -/
def arbitrated (raised irqen fiqen : Banks) (vector : Word) : Option (Word × Bool × Bool) :=
  match exec .arbitrate (around { Collector.reset with raised, irqen, fiqen, vector }) with
  | .next t => some (t.icoll.vector, t.icoll.irqOut, t.icoll.fiqOut)
  | .fault _ => none
  | .refused _ => none

/-- T-ARB-1, 3, 9: FIQ over IRQ, a bank boundary, the highest index by class. -/
theorem test_arbitrate :
    arbitrated #v[0x20, 0, 0x40, 0] #v[0x20, 0, 0, 0] #v[0, 0, 0x40, 0] 5 = some (0x46, false, true) ∧
    arbitrated #v[0x80000000, 1, 0, 0] #v[0x80000000, 1, 0, 0] #v[0, 0, 0, 0] 0x7F = some (0x1F, true, false) ∧
    arbitrated #v[1, 0, 0, 0x80000000] #v[1, 0, 0, 0] #v[0, 0, 0, 0x80000000] 0x7F =
      some (0x7F, false, true) := by decide

/-- T-ARB-5, 6: the candidate and not the raised line; the vector retained. -/
theorem test_arbitrate_masked :
    arbitrated #v[0xA, 0, 0, 0] #v[8, 0, 0, 0] #v[0, 0, 0, 0] 0x7F = some (3, true, false) ∧
    arbitrated #v[0xA, 0, 0, 0] #v[0, 0, 0, 0] #v[0, 0, 0, 0] 0x2A = some (0x2A, false, false) := by decide

/-! ### Reset (section 2.10) and the step -/

/-- RESET gives the state after reset, from an active collector. -/
theorem test_reset : after fiq70 .rs = some { State.reset with response := .nothing } := rfl

theorem test_step_idle : step State.reset = .next State.reset := rfl

theorem test_step_refuses : step (State.reset.withEvent (.br 0x022 32)) = .refused (.misaligned 0x022 32) := rfl

/-- The pseudo-operation EN_IRQ 5 of P1 event 3. -/
theorem test_pseudo : pseudoEnIrq 5 = .bw 0x174 8 0x04 := by decide

/-! ### Witnesses: the hypotheses of each statement that has any can be met together -/

theorem irq5_inv : irq5.Inv :=
  Collector.inv_of_fixed_point (by decide) (by decide) (by decide) rfl

theorem fiq70_inv : fiq70.Inv :=
  Collector.inv_of_fixed_point (by decide) (by decide) (by decide) rfl

theorem reset_collector_inv : Collector.reset.Inv :=
  Collector.inv_of_fixed_point (by decide) (by decide) (by decide) rfl

/-- Lines 3 and 5 enabled for IRQ, line 5 presented: line 3 can come in below it. -/
def irq5below3 : Collector := enabled 3 0x04 irq5

theorem irq5below3_inv : irq5below3.Inv :=
  Collector.inv_of_fixed_point (by decide) (by decide) (by decide) rfl

/-- Two FIQ lines, 3 presented, 70 behind it. -/
def fiq3 : Collector := fiqAt 3 (pending 3 (enabled 3 0x10 fiq70))

/-- T-ACK-6: FIQ line 9 presented, IRQ line 8 behind it. -/
def fiq9 : Collector := fiqAt 9 (pending 9 (enabled 9 0x10 irq8))

theorem witness_DecodeOfEncodeIsTheInstruction :
    (Instr.wrUndef 0x92 3 (.half true) 0xFFFF).wellFormed = true ∧
    encode (.wrUndef 0x92 3 (.half true) 0xFFFF) = some (.bw 0x92E 16 0xFFFF) := by decide

theorem witness_EncodeOfDecodeIsTheEvent : decode (.bw 0x91C 8 0x14) = .ok (.wrIntctlTog 127 (.byte 0) 0x14) := rfl

theorem witness_DecodeAgreesWithMaskAndMatch :
    legalAccess 0x91F 8 = true ∧ legalAccess 0x122 16 = true ∧ legalAccess 0xFFFFFFFC 32 = true := by decide

theorem witness_StepRunsTheDecodedInstruction :
    ((around irq5).withEvent (.ln 5 false)).input = [.ln 5 false] ∧
    decode (.ln 5 false) = .ok (.lineDeassert 5) ∧ (around irq5).input = [] := ⟨rfl, rfl, rfl⟩

/-- One event for each clause, at the values next to the legal ones. -/
theorem witness_IllegalTransactionsAreRefused :
    ((around irq5).withEvent (.br 0x020 33)).input = [.br 0x020 33] ∧ (33 ≠ 8 ∧ 33 ≠ 16 ∧ 33 ≠ 32) ∧
    ((around irq5).withEvent (.bw 0x021 16 0)).input = [.bw 0x021 16 0] ∧ (0x021 : Word).toNat % 2 = 1 ∧
    ((around irq5).withEvent (.br 0x022 32)).input = [.br 0x022 32] ∧ (0x022 : Word).toNat % 4 ≠ 0 := by decide

theorem witness_EveryLegalEventCompletes :
    ((around irq5).withEvent (.bw 0x023 8 0)).input = [.bw 0x023 8 0] ∧ legalEvent (.bw 0x023 8 0) = true := by
  decide

theorem witness_StepKeepsTheInvariants :
    ((around irq5).withEvent (.ln 5 false)).icoll.Inv ∧
    ∃ t, step ((around irq5).withEvent (.ln 5 false)) = .next t := ⟨irq5_inv, _, rfl⟩

theorem witness_RapDirectReplacesTheCoveredLanes :
    exec (.rap 0 0 0xFFFFFFFF 0xFFFFFFFF) State.reset =
      .next { State.reset with response := .rapPair 0 0xFFFFFFFF } := rfl

theorem witness_RapUnknownSelectorIsDirect : 4 ≠ 1 ∧ 4 ≠ 2 ∧ 4 ≠ 3 := by decide

theorem witness_RapChangesOnlyTheCoveredLanes :
    (0xBEEF0000 : Word) &&& ~~~0xFFFF0000 = 0 ∧ 7 / 8 ≠ (1 : BitVec 2).toNat ∧ 16 / 8 ≠ (1 : BitVec 2).toNat := by
  decide

/-- The last bit of the last bank is line 127. -/
theorem witness_WordReadsReturnTheStoredWord :
    31 < 32 ∧ BitVec.ofNat 7 (32 * (3 : Bank).toNat + 31) = (127 : Line) := by decide

theorem witness_LineControlReadsBackTheByte : (around irq5).icoll.Inv := irq5_inv

theorem witness_VectorReadNamesTheWinner :
    (around fiq70).icoll.Inv ∧ (around fiq70).icoll.fiqOut = true ∧
    (around irq5).icoll.Inv ∧ (around irq5).icoll.irqOut = true := ⟨fiq70_inv, rfl, irq5_inv, rfl⟩

theorem witness_NarrowReadsReturnTheLanes : ∀ b n, Instr.rdIntctl n ∈
    [Instr.rdVector, Instr.rdLevelack, Instr.rdCtrl, Instr.rdRaised b, Instr.rdRaw b, Instr.rdIntctl n] := by simp

theorem witness_BusReadsLeaveTheCollector :
    ((around irq5).withEvent (.br 0x000 32)).input = .br 0x000 32 :: [] ∧
    ∃ t, step ((around irq5).withEvent (.br 0x000 32)) = .next t := ⟨rfl, _, rfl⟩

/-- The first and last unit of every undefined range. -/
theorem witness_UndefinedReadsReturnZero :
    ((around irq5).withEvent (.br 0x92C 32)).input = [.br 0x92C 32] ∧ legalAccess 0x92C 32 = true ∧
    (unitOf 0x92C).undefined = true ∧
    [(0x3 : UnitNo), 0x8, 0x9, 0xE, 0x11, 0x92, 0xFFFFFFF].all UnitNo.undefined = true := ⟨rfl, rfl, rfl, rfl⟩

theorem witness_UndefinedWritesAreDropped :
    arbitrate (around irq5).icoll = (around irq5).icoll ∧
    (((around irq5).withEvent (.br 0x11C 32)).withEvent (.bw 0x11C 8 1)).input = [.bw 0x11C 8 1, .br 0x11C 32] ∧
    legalAccess 0x11C 8 = true ∧ legalAccess 0x11C 32 = true ∧ (unitOf 0x11C).undefined = true :=
  ⟨rfl, rfl, rfl, rfl, rfl⟩

theorem witness_ReadOnlyRegistersDiscardWrites :
    (around irq5).icoll.Inv ∧ Instr.wrRaw 3 0 .word 1 ∈
      [Instr.wrVector 0 .word 1, Instr.wrRaised 3 0 .word 1, Instr.wrRaw 3 0 .word 1] := ⟨irq5_inv, by simp⟩

theorem witness_ControlWriteFollowsAliasAndEdge : (around irq5).icoll.Inv := irq5_inv

theorem witness_ControlAndLevelackAreInert :
    (∃ t, exec (.lineAssert 5) (around irq5) = .next t) ∧
    ∀ sel l, Instr.lineAssert 5 ≠ .rdCtrl sel l ∧ Instr.lineAssert 5 ≠ .rdLevelack sel l :=
  ⟨⟨_, rfl⟩, fun _ _ => ⟨nofun, nofun⟩⟩

theorem witness_AcknowledgeClearsTheSelectedLine :
    31 < 32 ∧ coveredBit (.byte 3) 31 = true ∧ coveredBit (.byte 3) 23 = false := by decide

/-- One state for each clause: nothing left, a FIQ line left, an IRQ line left. -/
theorem witness_AcknowledgeMovesToTheNextWinner :
    (∀ n, n ≠ vecnum irq5.vector → ¬ irq5.FiqCandidate n ∧ ¬ irq5.IrqCandidate n) ∧
    LeastLine (fun m => m ≠ vecnum fiq3.vector ∧ fiq3.FiqCandidate m) 70 ∧
    (∀ m, m ≠ vecnum fiq9.vector → ¬ fiq9.FiqCandidate m) ∧
    LeastLine (fun m => m ≠ vecnum fiq9.vector ∧ fiq9.IrqCandidate m) 8 := by
  unfold LeastLine Collector.FiqCandidate Collector.IrqCandidate
  refine ⟨by decide, by decide, by decide, by decide⟩

/-- T-ACK-8: line 127 pending and disabled, nothing selected. -/
def masked127 : Collector := pending 127 Collector.reset

/-- T-ACK-11: line 127 presented as IRQ. -/
def irq127 : Collector := irqAt 127 (pending 127 (enabled 127 0x04 Collector.reset))

/-- Line 127 alone presented as FIQ. -/
def fiq127 : Collector := fiqAt 127 (pending 127 (enabled 127 0x10 Collector.reset))

/-- T-ARB-9: FIQ line 127 presented over IRQ line 0. -/
def fiq127over0 : Collector := fiqAt 127 (pending 127 (enabled 127 0x10 (pending 0 (enabled 0 0x04 Collector.reset))))

theorem masked127_inv : masked127.Inv :=
  Collector.inv_of_fixed_point (by decide) (by decide) (by decide) rfl

theorem irq127_inv : irq127.Inv :=
  Collector.inv_of_fixed_point (by decide) (by decide) (by decide) rfl

theorem fiq127_inv : fiq127.Inv :=
  Collector.inv_of_fixed_point (by decide) (by decide) (by decide) rfl

theorem fiq127over0_inv : fiq127over0.Inv :=
  Collector.inv_of_fixed_point (by decide) (by decide) (by decide) rfl

/-- One state for each clause, with `VECTOR = 0x7F` in all. -/
theorem witness_AcknowledgeAtTheSentinel :
    (masked127.Inv ∧ masked127.vector = 0x7F ∧ lineBit masked127.raised 127 = true ∧
      ¬ masked127.FiqCandidate 127 ∧ ¬ masked127.IrqCandidate 127) ∧
    (irq127.Inv ∧ irq127.vector = 0x7F ∧ irq127.irqOut = true) ∧
    (fiq127.Inv ∧ fiq127.vector = 0x7F ∧ fiq127.fiqOut = true ∧ ∀ n, n ≠ 127 → ¬ fiq127.IrqCandidate n) ∧
    (fiq127over0.Inv ∧ fiq127over0.vector = 0x7F ∧ fiq127over0.fiqOut = true ∧
      LeastLine (fun m => m ≠ 127 ∧ fiq127over0.IrqCandidate m) 0) := by
  refine ⟨⟨masked127_inv, rfl, by decide, ?_, ?_⟩, ⟨irq127_inv, rfl, rfl⟩, ⟨fiq127_inv, rfl, rfl, ?_⟩,
    ⟨fiq127over0_inv, rfl, rfl, ?_⟩⟩
  · unfold Collector.FiqCandidate; decide
  · unfold Collector.IrqCandidate; decide
  · unfold Collector.IrqCandidate; decide
  · unfold LeastLine Collector.IrqCandidate; decide

/-- The highest bit of a word and of a control byte. -/
theorem witness_FourByteWritesMakeTheWord : 31 < 32 ∧ 7 < 8 := by decide

theorem witness_LineControlWriteRoutesAndInjects : 7 < 8 ∧ (126 : Line) ≠ 127 := by decide

theorem witness_UpperLaneControlWritesChangeNothing :
    (around irq5).icoll.Inv ∧ (Lanes.byte 1).lane ≠ 0 ∧ (Lanes.half true).lane ≠ 0 ∧ (Lanes.byte 3).lane ≠ 0 :=
  ⟨irq5_inv, by decide⟩

/-- T-ICT-5, and T-ICT-22 with the line pending and not injected. -/
theorem witness_LineControlWritePresentsTheLine :
    (aliasBit 0 false (coveredBit (.byte 0) 2) (operandBit (.byte 0) 0x0C 2) = true ∧
      aliasBit 0 false (coveredBit (.byte 0) 4) (operandBit (.byte 0) 0x0C 4) = false ∧
      (lineBit Collector.reset.raised 20 || operandBit (.byte 0) 0x0C 3) = true) ∧
    lineBit (pending 20 Collector.reset).raised 20 = true ∧
    (∀ m, m ≠ 20 → ¬ Collector.reset.FiqCandidate m) ∧
    ∀ m, m.toNat < (20 : Line).toNat → ¬ Collector.reset.IrqCandidate m := by
  unfold Collector.FiqCandidate Collector.IrqCandidate
  refine ⟨by decide, by decide, by decide, by decide⟩

theorem witness_LineEventsAreIdempotent :
    Instr.lineDeassert 33 ∈ [Instr.lineAssert 33, Instr.lineDeassert 33] := by simp

theorem witness_DisabledLineIsLatchedOnly :
    (around irq5).icoll.Inv ∧ lineBit (around irq5).icoll.irqen 127 = false ∧
    lineBit (around irq5).icoll.fiqen 127 = false := ⟨irq5_inv, by decide, by decide⟩

theorem witness_DeassertingTheLastCandidateGoesStale :
    ∀ m, m ≠ 5 → ¬ irq5.FiqCandidate m ∧ ¬ irq5.IrqCandidate m := by
  unfold Collector.FiqCandidate Collector.IrqCandidate; decide

/-- One state for each clause: a FIQ candidate, an IRQ candidate alone, none. -/
theorem witness_ArbitrateSelectsTheLeastCandidate :
    LeastLine fiq70.FiqCandidate 70 ∧
    ((∀ m, ¬ irq12.FiqCandidate m) ∧ LeastLine irq12.IrqCandidate 12) ∧
    ¬ Collector.reset.HasCandidate := by
  unfold Collector.HasCandidate LeastLine Collector.FiqCandidate Collector.IrqCandidate
  refine ⟨by decide, ⟨by decide, by decide⟩, by decide⟩

theorem witness_FiqPreemptsIrq : fiq70.FiqCandidate 70 ∧ ∀ m, fiq70.FiqCandidate m → m = 70 := by
  unfold Collector.FiqCandidate; decide

theorem witness_LowestIndexWins :
    (12 : Line).toNat < (40 : Line).toNat ∧ (∀ k, irq12.IrqCandidate k ↔ k = 12 ∨ k = 40) ∧
    ∀ k, ¬ irq12.FiqCandidate k := by
  unfold Collector.FiqCandidate Collector.IrqCandidate
  refine ⟨by decide, by decide, by decide⟩

/-- No candidate; a new winner; the sentinel after an acknowledge. -/
theorem witness_VectorIsRetained :
    ¬ Collector.reset.HasCandidate ∧
    (∃ t, exec (.lineAssert 3) (around irq5below3) = .next t ∧
      t.icoll.vector ≠ (around irq5below3).icoll.vector) ∧
    ∃ t, exec (ackWrite 0 .word 1) (around irq5) = .next t ∧ t.icoll.vector ≠ (around irq5).icoll.vector := by
  unfold Collector.HasCandidate Collector.FiqCandidate Collector.IrqCandidate
  exact ⟨by decide, ⟨_, rfl, by decide⟩, _, rfl, by decide⟩

/-- Two states that differ outside what arbitration reads. -/
theorem witness_ArbitrateReadsOnlyItsInputs :
    let s := around irq5
    let s' := around { irq5 with ctrl := 1, irqOut := false }
    (∃ t t', exec .arbitrate s = .next t ∧ exec .arbitrate s' = .next t') ∧ s.icoll ≠ s'.icoll ∧
    s.icoll.raised = s'.icoll.raised ∧ s.icoll.irqen = s'.icoll.irqen ∧ s.icoll.fiqen = s'.icoll.fiqen ∧
    s.icoll.vector = s'.icoll.vector :=
  ⟨⟨_, _, rfl, rfl⟩, fun h => absurd (congrArg Collector.ctrl h) (by decide), rfl, rfl, rfl, rfl⟩

/-- A bit that is set and a bit that is cleared. -/
theorem witness_WhatChangesAPendingBit :
    (∃ t, exec (.lineAssert 3) (around irq5below3) = .next t ∧
      lineBit (around irq5below3).icoll.raised 3 = false ∧ lineBit t.icoll.raised 3 = true) ∧
    ∃ t, exec (.wrLevelackDir .word 0) (around irq5) = .next t ∧
      lineBit (around irq5).icoll.raised 5 = true ∧ lineBit t.icoll.raised 5 = false :=
  ⟨⟨_, rfl, by decide, by decide⟩, _, rfl, by decide, by decide⟩

theorem witness_OnlyControlWritesRoute :
    (∃ t, exec (.lineAssert 3) (around irq5) = .next t) ∧
    (∀ sel l d, Instr.lineAssert 3 ≠ lineWrite 3 sel l d) ∧ Instr.lineAssert 3 ≠ .reset := by
  refine ⟨⟨_, rfl⟩, fun sel l d => ?_, nofun⟩
  unfold lineWrite bySel
  split_ifs <;> nofun

theorem witness_DiagnosticsComeFromUndefinedUnitsOnly :
    ∃ t, exec (.rdUndef 0x92 0 .word) (around irq5) = .next t ∧ t.diags = [⟨.read, 0x920⟩] := ⟨_, rfl, by decide⟩

/-- One operation for each clause: a candidate remains, an acknowledge with none, a deassert with none. -/
theorem witness_ServiceStateTransitions :
    (around irq5).icoll.Inv ∧
    (∃ t, exec (.lineAssert 5) (around irq5) = .next t ∧ t.icoll.HasCandidate) ∧
    (∃ t, exec (ackWrite 0 .word 0) (around irq5) = .next t ∧ ¬ t.icoll.HasCandidate) ∧
    (∃ t, exec (.lineDeassert 5) (around irq5) = .next t ∧ ¬ t.icoll.HasCandidate) ∧
    (∀ sel l d, Instr.lineDeassert 5 ≠ ackWrite sel l d) ∧ Instr.lineDeassert 5 ≠ .reset := by
  unfold Collector.HasCandidate Collector.FiqCandidate Collector.IrqCandidate
  refine ⟨irq5_inv, ⟨_, rfl, 5, by decide⟩, ⟨_, rfl, by decide⟩, ⟨_, rfl, by decide⟩, fun sel l d => ?_, nofun⟩
  unfold ackWrite bySel
  split_ifs <;> nofun

theorem witness_LineEventsCommute :
    (5 : Line) ≠ 70 ∧ ∃ t, AfterBoth (.lineAssert 5) (.lineAssert 70) (around (enabled 70 0x10 irq5)) t ∧
      t.icoll.HasCandidate := by
  unfold Collector.HasCandidate Collector.FiqCandidate Collector.IrqCandidate
  exact ⟨by decide, _, ⟨_, rfl, rfl⟩, 70, by decide⟩

theorem witness_OrderOfAssertAndAcknowledgeMatters :
    (around irq5below3).icoll.Inv ∧ (around irq5below3).icoll.irqOut = true ∧
    vecnum (around irq5below3).icoll.vector = 5 ∧ (3 : Line).toNat < (5 : Line).toNat ∧
    lineBit (around irq5below3).icoll.irqen 3 = true ∧ lineBit (around irq5below3).icoll.fiqen 3 = false :=
  ⟨irq5below3_inv, rfl, by decide, by decide, by decide, by decide⟩

/-- The first address of the window, and the first after it. -/
theorem witness_CpuAccessesAreRouted :
    Config.base ≤ Config.base ∧ Config.base < Config.base + Config.windowBytes ∧
    Config.base + Config.windowBytes ≤ Config.base + Config.windowBytes := by
  simp [Config.windowBytes]

end Sys2Proof.Tests
end

section
/-! SUPPORT. Totality of the operations (`00_scope.md` R12): each of the three ways an operation completes
answers a next state and takes no event from the ports. -/

namespace Sys2Proof.Machine

theorem completeRead_keeps_input (s : State) (lanes : Lanes) (r : Word) :
    ∃ t, completeRead s lanes r = .next t ∧ t.input = s.input :=
  ⟨_, rfl, State.respond_input s _⟩

theorem completeWrite_keeps_input (s : State) (c : Collector) :
    ∃ t, completeWrite s c = .next t ∧ t.input = s.input :=
  ⟨_, rfl, by rw [State.respond_input, State.withIcoll_input]⟩

theorem completeEvent_keeps_input (s : State) (c : Collector) :
    ∃ t, completeEvent s c = .next t ∧ t.input = s.input :=
  ⟨_, rfl, by rw [State.respond_input, State.withIcoll_input]⟩

/-- Settles O9, by the way each operation completes: a read of a register, a bus write, an event, or a bare
response. The two accesses to an undefined unit emit a diagnostic first, which takes no event either. -/
theorem everyOperationIsTotal : Obligations.EveryOperationIsTotal := by
  unfold Obligations.EveryOperationIsTotal
  intro i s
  cases i with
  | rdVector | rdLevelack | rdCtrl | rdRaised | rdRaw | rdIntctl => exact completeRead_keeps_input s _ _
  | rdUndef => exact ⟨_, rfl, by rw [State.respond_input, State.raiseDiag_input]⟩
  | wrVector | wrRaised | wrRaw
  | wrLevelackDir | wrLevelackSet | wrLevelackClr | wrLevelackTog
  | wrCtrlDir | wrCtrlSet | wrCtrlClr | wrCtrlTog
  | wrIntctlDir | wrIntctlSet | wrIntctlClr | wrIntctlTog => exact completeWrite_keeps_input s _
  | wrUndef unit sel lanes =>
    have keeps := completeWrite_keeps_input (s.raiseDiag .write (mkOff unit sel lanes.lane)) s.icoll
    rw [State.raiseDiag_input] at keeps
    exact keeps
  | lineAssert | lineDeassert | reset | arbitrate => exact completeEvent_keeps_input s _
  | rap => exact ⟨_, rfl, State.respond_input s _⟩

end Sys2Proof.Machine
end

section
/-! SUPPORT. The state's own rules (`10_state.md`): what arbitration needs of a collector to establish INV1 to
INV7 (R43), that every operation keeps them, that CTRL and LEVELACK reach nothing else (R31, R32), and who
writes a line's enables and control byte (R24). -/

namespace Sys2Proof.Machine

/-! ### Arbitration, one equation per outcome of its two passes -/

theorem arbitrate_of_fiq {c : Collector} {n : Nat} (fiq : scan c.raised c.fiqen = some n) :
    arbitrate c = { c with vector := BitVec.ofNat 32 n, fiqOut := true, irqOut := false } := by
  simp only [arbitrate, fiq]

theorem arbitrate_of_irq {c : Collector} {n : Nat} (fiq : scan c.raised c.fiqen = none)
    (irq : scan c.raised c.irqen = some n) :
    arbitrate c = { c with vector := BitVec.ofNat 32 n, irqOut := true, fiqOut := false } := by
  simp only [arbitrate, fiq, irq]

theorem arbitrate_of_none {c : Collector} (fiq : scan c.raised c.fiqen = none)
    (irq : scan c.raised c.irqen = none) :
    arbitrate c = { c with irqOut := false, fiqOut := false } := by
  simp only [arbitrate, fiq, irq]

/-- An arbitrated collector is a fixed point: the passes read nothing that arbitration writes (R172). -/
theorem arbitrate_arbitrate (c : Collector) : arbitrate (arbitrate c) = arbitrate c := by
  cases fiq : scan c.raised c.fiqen with
  | some n => rw [arbitrate_of_fiq fiq]; exact arbitrate_of_fiq fiq
  | none =>
    cases irq : scan c.raised c.irqen with
    | some n => rw [arbitrate_of_irq fiq irq]; exact arbitrate_of_irq fiq irq
    | none => rw [arbitrate_of_none fiq irq]; exact arbitrate_of_none fiq irq

/-- VECTOR stays a 7-bit value: arbitration leaves a line index there, or what was there. -/
theorem arbitrate_vector_lt {c : Collector} (vector : c.vector.toNat < 128) :
    (arbitrate c).vector.toNat < 128 := by
  have line (n : Line) : (BitVec.ofNat 32 n.toNat).toNat < 128 := by
    rw [BitVec.toNat_ofNat]; have := n.isLt; omega
  rcases arbitrate_cases c with ⟨n, _, e⟩ | ⟨_, n, _, e⟩ | ⟨_, _, e⟩ <;> rw [e]
  · exact line n
  · exact line n
  · exact vector

/-! ### The storage invariants: the part of R43 that does not speak of candidates -/

/-- INV1, INV2 and INV3 of `10_state.md` R43: what a handler must keep, so that the arbitration that closes the
operation establishes the rest. -/
structure Collector.WellStored (c : Collector) : Prop where
  /-- INV1. -/
  enables_match : ∀ n, lineBit c.irqen n = (intctlByte c.intctl n).getLsbD 2 ∧
    lineBit c.fiqen n = (intctlByte c.intctl n).getLsbD 4
  /-- INV2. -/
  softirq_clear : ∀ n, (intctlByte c.intctl n).getLsbD 3 = false
  /-- INV3. -/
  vector_lt : c.vector.toNat < 128

theorem Collector.Inv.wellStored {c : Collector} (inv : c.Inv) : c.WellStored :=
  ⟨inv.enables_match, inv.softirq_clear, Nat.lt_pow_two_of_testBit (n := 7) _ inv.vector_high_zero⟩

/-- Arbitration makes a well-stored collector one that meets all seven invariants. -/
theorem Collector.WellStored.inv_arbitrate {c : Collector} (stored : c.WellStored) : (arbitrate c).Inv :=
  Collector.inv_of_fixed_point (by simpa using stored.enables_match) (by simpa using stored.softirq_clear)
    (arbitrate_vector_lt stored.vector_lt) (arbitrate_arbitrate c)

/-- The pending latch is free of the storage invariants, so a line event keeps all seven. -/
theorem Collector.WellStored.inv_setLine {c : Collector} (stored : c.WellStored) (n : Line) (level : Bool) :
    (setLine c n level).Inv :=
  have latched : Collector.WellStored { c with raised := setLineBit c.raised n level } :=
    ⟨stored.enables_match, stored.softirq_clear, stored.vector_lt⟩
  latched.inv_arbitrate

theorem Collector.WellStored.writeLevelAck {c : Collector} (stored : c.WellStored) (sel : Nat)
    (mask opnd : Word) : (writeLevelAck c sel mask opnd).WellStored :=
  have sentinel_lt : vecNone.toNat < 128 := by decide
  ⟨stored.enables_match, stored.softirq_clear, sentinel_lt⟩

theorem Collector.WellStored.writeCtrl {c : Collector} (stored : c.WellStored) (sel : Nat)
    (mask opnd : Word) : (writeCtrl c sel mask opnd).WellStored :=
  ⟨stored.enables_match, stored.softirq_clear, stored.vector_lt⟩

/-- A per-line control write takes the enables and the stored byte from one new value, whose softirq bit the
store drops (R134). -/
theorem Collector.WellStored.writeIntCtl {c : Collector} (stored : c.WellStored) (n : Line) (sel : Sel)
    (mask opnd : Word) : (writeIntCtl c n sel.toNat mask opnd).WellStored := by
  obtain ⟨byte, otherByte, irqen, fiqen, -, frame⟩ := writeIntCtl_spec c n sel mask opnd
  refine ⟨fun m => ?_, fun m => ?_, by rw [frame]; exact stored.vector_lt⟩
  · rw [irqen, fiqen]
    by_cases hm : m = n
    · subst hm; rw [byte, byte]; simp
    · simpa only [if_neg hm, otherByte m hm] using stored.enables_match m
  · by_cases hm : m = n
    · subst hm; rw [byte]; simp
    · rw [otherByte m hm]; exact stored.softirq_clear m

/-! ### Reset and every operation keep the invariants -/

theorem Collector.reset_wellStored : Collector.reset.WellStored where
  enables_match n := by simp [Collector.reset, lineBit, bankWord, intctlByte]
  softirq_clear n := by simp [Collector.reset, intctlByte]
  vector_lt := by decide

/-- Settles O11: nothing is raised or enabled after reset, so that arbitration finds no candidate and leaves
the collector as it is. -/
theorem resetSatisfiesTheInvariants : Obligations.ResetSatisfiesTheInvariants := by
  have fixed : arbitrate Collector.reset = Collector.reset := rfl
  have inv : (arbitrate Collector.reset).Inv := Collector.reset_wellStored.inv_arbitrate
  rw [fixed] at inv
  exact inv

theorem exec_keeps_inv {i : Instr} {s t : State} (run : exec i s = .next t) (inv : s.icoll.Inv) :
    t.icoll.Inv := by
  have stored := inv.wellStored
  rcases exec_cases run with same | arb | ⟨n, level, -, line⟩ | ⟨sel, l, d, -, ack⟩ | ⟨sel, l, d, -, ctrl⟩ |
    ⟨n, sel, l, d, -, intctl⟩ | ⟨-, reset⟩
  · rw [same]; exact inv
  · rw [arb]; exact stored.inv_arbitrate
  · rw [line]; exact stored.inv_setLine n level
  · rw [ack]; exact (stored.writeLevelAck _ _ _).inv_arbitrate
  · rw [ctrl]; exact (stored.writeCtrl _ _ _).inv_arbitrate
  · rw [intctl]; exact (stored.writeIntCtl n sel _ _).inv_arbitrate
  · rw [reset]; exact resetSatisfiesTheInvariants

/-- Settles O10: an idle step changes nothing, a refusal answers no state, and a decoded operation keeps the
invariants, since its handler keeps the storage invariants and the closing arbitration establishes the rest. -/
theorem stepKeepsTheInvariants : Obligations.StepKeepsTheInvariants := by
  intro s t inv run
  rcases step_cases s with ⟨-, idle⟩ | ⟨_, rest, i, -, -, taken⟩ | ⟨_, _, _, -, -, refused⟩
  · rw [idle] at run; cases run; exact inv
  · rw [taken] at run; exact exec_keeps_inv (s := { s with input := rest }) run inv
  · rw [refused] at run; cases run

/-! ### Only a line's control write and reset change its routing -/

/-- Settles O48: of the handlers only the per-line control write touches the enables and the control bytes, and
it touches those of its own line only. -/
theorem onlyControlWritesRoute : Obligations.OnlyControlWritesRoute := by
  intro i s t n run notWrite notReset
  rcases exec_cases run with same | arb | ⟨m, level, -, line⟩ | ⟨sel, l, d, -, ack⟩ | ⟨sel, l, d, -, ctrl⟩ |
    ⟨m, sel, l, d, write, intctl⟩ | ⟨reset, -⟩
  · rw [same]; exact ⟨rfl, rfl, rfl⟩
  · simp [arb]
  · simp [line, setLine]
  · simp [ack, writeLevelAck]
  · simp [ctrl, writeCtrl]
  · have other : n ≠ m := fun e => notWrite sel l d (e ▸ write)
    obtain ⟨-, otherByte, irqen, fiqen, -, -⟩ := writeIntCtl_spec s.icoll m sel (laneMask l) (laneOpnd l d)
    simp [intctl, irqen, fiqen, otherByte n other, other]
  · exact absurd reset notReset

/-! ### CTRL and LEVELACK reach nothing else -/

/-- The collector with other words in CTRL and LEVELACK, the two elements that control nothing. -/
def Collector.withInert (c : Collector) (x y : Word) : Collector := { c with ctrl := x, levelack := y }

/-- The machine with other words in CTRL and LEVELACK. -/
def State.withInert (s : State) (x y : Word) : State := s.withIcoll (s.icoll.withInert x y)

theorem arbitrate_withInert (c : Collector) (x y : Word) :
    arbitrate (c.withInert x y) = (arbitrate c).withInert x y := by
  cases fiq : scan c.raised c.fiqen with
  | some n => rw [arbitrate_of_fiq fiq]; exact arbitrate_of_fiq (c := c.withInert x y) fiq
  | none =>
    cases irq : scan c.raised c.irqen with
    | some n => rw [arbitrate_of_irq fiq irq]; exact arbitrate_of_irq (c := c.withInert x y) fiq irq
    | none => rw [arbitrate_of_none fiq irq]; exact arbitrate_of_none (c := c.withInert x y) fiq irq

theorem setLine_withInert (c : Collector) (n : Line) (level : Bool) (x y : Word) :
    setLine (c.withInert x y) n level = (setLine c n level).withInert x y :=
  arbitrate_withInert { c with raised := setLineBit c.raised n level } x y

/-- `r'` is the outcome `r` but for the words of CTRL and LEVELACK. -/
def SameButInert (r r' : Result) : Prop :=
  ∀ t, r = .next t → ∃ x y, r' = .next (t.withInert x y)

/-- A read of anything but the two words: the value read is the same. -/
theorem completeRead_withInert (s : State) (x y : Word) (lanes : Lanes) (r : Word) :
    SameButInert (completeRead s lanes r) (completeRead (s.withInert x y) lanes r) := by
  rintro _ ⟨⟩
  exact ⟨x, y, rfl⟩

/-- A bus write whose two handlers leave collectors that differ in the two words only. -/
theorem completeWrite_withInert (s : State) (x y : Word) {c c' : Collector} (x' y' : Word)
    (handlers : c' = c.withInert x' y') :
    SameButInert (completeWrite s c) (completeWrite (s.withInert x y) c') := by
  rintro _ ⟨⟩
  refine ⟨x', y', ?_⟩
  rw [handlers, completeWrite, arbitrate_withInert]
  rfl

theorem completeEvent_withInert (s : State) (x y : Word) {c c' : Collector} (x' y' : Word)
    (handlers : c' = c.withInert x' y') :
    SameButInert (completeEvent s c) (completeEvent (s.withInert x y) c') := by
  rintro _ ⟨⟩
  exact ⟨x', y', by rw [handlers]; rfl⟩

/-- Every operation but a read of one of the two words: each handler hands CTRL and LEVELACK on, or writes them
from themselves and its operand. -/
theorem exec_withInert {i : Instr} (other : ∀ sel l, i ≠ .rdCtrl sel l ∧ i ≠ .rdLevelack sel l) (s : State)
    (x y : Word) : SameButInert (exec i s) (exec i (s.withInert x y)) := by
  cases i with
  | rdCtrl sel l => exact absurd rfl (other sel l).1
  | rdLevelack sel l => exact absurd rfl (other sel l).2
  | rdVector | rdRaised | rdRaw | rdIntctl => exact completeRead_withInert s x y _ _
  | rdUndef | rap => rintro _ ⟨⟩; exact ⟨x, y, rfl⟩
  | wrVector | wrRaised | wrRaw => exact completeWrite_withInert s x y x y rfl
  | wrUndef unit sel lanes =>
    exact completeWrite_withInert (s.raiseDiag .write (mkOff unit sel lanes.lane)) x y x y rfl
  | wrLevelackDir | wrLevelackSet | wrLevelackClr | wrLevelackTog =>
    exact completeWrite_withInert s x y x (rap y _ _ _).2 rfl
  | wrCtrlDir | wrCtrlSet | wrCtrlClr | wrCtrlTog =>
    exact completeWrite_withInert s x y (forceCompanion (rap x _ _ _).1 (rap x _ _ _).2) y rfl
  | wrIntctlDir | wrIntctlSet | wrIntctlClr | wrIntctlTog => exact completeWrite_withInert s x y x y rfl
  | lineAssert | lineDeassert => exact completeEvent_withInert s x y x y (setLine_withInert _ _ _ x y)
  | reset => exact completeEvent_withInert s x y 0 0 rfl
  | arbitrate => exact completeEvent_withInert s x y x y (arbitrate_withInert _ x y)

/-- Settles O26: a read of CTRL or LEVELACK changes no collector and answers what it reads; every other
operation runs the same from both states. -/
theorem controlAndLevelackAreInert : Obligations.ControlAndLevelackAreInert := by
  intro i s t x y run
  by_cases other : ∀ sel l, i ≠ .rdCtrl sel l ∧ i ≠ .rdLevelack sel l
  · obtain ⟨x', y', run'⟩ := exec_withInert other s x y t run
    exact ⟨t.withInert x' y', x', y', run', rfl, rfl, fun _ => rfl⟩
  · cases i with
    | rdCtrl | rdLevelack => cases run; exact ⟨_, x, y, rfl, rfl, rfl, fun h => absurd h other⟩
    | _ => exact absurd (fun _ _ => ⟨nofun, nofun⟩) other

end Sys2Proof.Machine
end

section
/-! SUPPORT. The memory interface (`20_memory.md`): taking one transaction at a time (R66), the CPU's window
(R51, R62), what a bus read hands back and leaves alone (R56, R59), and a word written byte by byte (R57). -/

namespace Sys2Proof.Machine

/-! ### One event a step -/

theorem step_of_decode {s : State} {e : PortEvent} {rest : List PortEvent} {i : Instr}
    (input : s.input = e :: rest) (decodes : decode e = .ok i) : step s = exec i { s with input := rest } := by
  rcases step_cases s with ⟨empty, -⟩ | ⟨_, _, _, head, ok, taken⟩ | ⟨_, _, _, head, error, -⟩
  · rw [input] at empty; cases empty
  · rw [input] at head; cases head
    rw [decodes] at ok; cases ok
    exact taken
  · rw [input] at head; cases head
    rw [decodes] at error; cases error

theorem step_of_empty {s : State} (empty : s.input = []) : step s = .next s := by
  rcases step_cases s with ⟨-, idle⟩ | ⟨_, _, _, head, -⟩ | ⟨_, _, _, head, -⟩
  · exact idle
  · rw [empty] at head; cases head
  · rw [empty] at head; cases head

/-- Settles O6: of the three things a step can do, the waiting events and the decoding of the first leave one. -/
theorem stepRunsTheDecodedInstruction : Obligations.StepRunsTheDecodedInstruction :=
  ⟨fun _ _ _ _ input decodes => step_of_decode input decodes, fun _ empty => step_of_empty empty⟩

/-! ### The window -/

theorem inWindow_iff (addr : Nat) :
    inWindow addr = true ↔ Config.base ≤ addr ∧ addr < Config.base + Config.windowBytes := by
  simp [inWindow]

/-- Every offset of the window fits the 32 bits of `off` (log 16). -/
theorem windowBytes_le : Config.windowBytes ≤ 2 ^ 32 := by
  have := Config.windowExtra.isLt
  simp only [Config.windowBytes]
  omega

theorem toNat_windowOffset {addr : Nat} (inside : inWindow addr = true) :
    (BitVec.ofNat 32 (addr - Config.base)).toNat = addr - Config.base := by
  obtain ⟨_, _⟩ := (inWindow_iff addr).1 inside
  have := windowBytes_le
  rw [BitVec.toNat_ofNat, Nat.mod_eq_of_lt (by omega)]

/-- Settles O53: the window test is the two bounds of R51, and no offset of the window wraps in 32 bits. -/
theorem cpuAccessesAreRouted : Obligations.CpuAccessesAreRouted := by
  refine fun addr n v => ⟨fun low high => ?_, fun outside => ?_, ?_, ?_⟩
  · have inside : inWindow addr = true := (inWindow_iff addr).2 ⟨low, high⟩
    exact ⟨_, toNat_windowOffset inside, if_pos inside, if_pos inside⟩
  · have notInside : ¬ inWindow addr = true := by rw [inWindow_iff]; omega
    exact ⟨if_neg notInside, if_neg notInside⟩
  · exact Nat.le_add_right _ _
  · exact Nat.mul_mod_right 16 _

/-! ### Bus reads -/

/-- The addressed lanes, in the words of the statements (R56). -/
theorem readsLanes_laneRead (l : Lanes) (r : Word) : ReadsLanes l r (laneRead l r) :=
  laneRead_getLsbD l r

/-- A read operation that, under every selector, ends by reading one register holding `r`. -/
theorem narrowRead_of_completeRead {rd : Sel → Lanes → Instr} {s : State} (r : Word)
    (reads : ∀ sel l, exec (rd sel l) s = completeRead s l r) (sel sel' : Sel) (l : Lanes) :
    ∃ r v, exec (rd sel .word) s = .next { s with response := .readData r } ∧
      exec (rd sel' l) s = .next { s with response := .readData v } ∧ ReadsLanes l r v :=
  have word : exec (rd sel .word) s = .next (s.respond (.readData r)) := by
    rw [reads, completeRead, laneRead_word]
  ⟨r, laneRead l r, word, reads sel' l, readsLanes_laneRead l r⟩

/-- Settles O20: each of the six operations reads one register whatever the selector is, and the lanes of the
access select from it. -/
theorem narrowReadsReturnTheLanes : Obligations.NarrowReadsReturnTheLanes := by
  intro s sel sel' l b n rd mem
  simp only [List.mem_cons, List.not_mem_nil, or_false] at mem
  rcases mem with rfl | rfl | rfl | rfl | rfl | rfl
  · exact narrowRead_of_completeRead s.icoll.vector (fun _ _ => rfl) sel sel' l
  · exact narrowRead_of_completeRead s.icoll.levelack (fun _ _ => rfl) sel sel' l
  · exact narrowRead_of_completeRead s.icoll.ctrl (fun _ _ => rfl) sel sel' l
  · exact narrowRead_of_completeRead (bankWord s.icoll.raised b) (fun _ _ => rfl) sel sel' l
  · exact narrowRead_of_completeRead (bankWord s.icoll.raised b) (fun _ _ => rfl) sel sel' l
  · exact narrowRead_of_completeRead ((intctlByte s.icoll.intctl n).setWidth 32) (fun _ _ => rfl) sel sel' l

/-- A bus read that decodes is one of the seven read operations. -/
theorem decode_br_eq_ok {off : Word} {w : Nat} {i : Instr} (h : decode (.br off w) = .ok i) :
    ∃ l, i = decodeRead off l := by
  change (lanesOf off w).map (decodeRead off) = .ok i at h
  cases lanes : lanesOf off w with
  | error err => rw [lanes] at h; cases h
  | ok l => rw [lanes] at h; cases h; exact ⟨l, rfl⟩

/-- A read operation leaves the collector and the waiting events: it ends by handing back lanes of a register,
or 0 with a diagnostic at an undefined unit. -/
theorem exec_decodeRead_frame {off : Word} {l : Lanes} {s t : State}
    (run : exec (decodeRead off l) s = .next t) : t.icoll = s.icoll ∧ t.input = s.input := by
  unfold decodeRead at run
  split at run <;> (cases run; exact ⟨rfl, rfl⟩)

/-- Settles O21: an accepted bus read runs a read operation, and a refused one answers no state. -/
theorem busReadsLeaveTheCollector : Obligations.BusReadsLeaveTheCollector := by
  intro s t off w rest input run
  rcases step_cases s with ⟨empty, -⟩ | ⟨e, rest', i, head, ok, taken⟩ | ⟨e, rest', err, -, -, refused⟩
  · rw [input] at empty; cases empty
  · rw [input] at head; cases head
    rw [taken] at run
    obtain ⟨l, rfl⟩ := decode_br_eq_ok ok
    exact exec_decodeRead_frame run
  · rw [refused] at run; cases run

/-! ### A word written lane by lane

A direct write to lanes `l` of the bits that a word `d` has there. The word write is the case `l = .word`. -/

/-- What a register's handler makes of the collector, the mask and the operand, before the closing arbitration. -/
abbrev Handler := Collector → Word → Word → Collector

/-- The collector after writing the lanes `l` of `d` where they stand, arbitration included. -/
def writeLanes (handler : Handler) (d : Word) (c : Collector) (l : Lanes) : Collector :=
  arbitrate (handler c (laneMask l) (laneOpnd l (d >>> laneShift l)))

/-- The collector after writing the four bytes of `d`, lane 0 first. -/
def writeBytes (handler : Handler) (d : Word) (c : Collector) : Collector :=
  [Lanes.byte 0, .byte 1, .byte 2, .byte 3].foldl (writeLanes handler d) c

/-- The four byte writes of `d`, one operation after the other. -/
def FourByteWrites (wr : Lanes → Word → Instr) (d : Word) (s t : State) : Prop :=
  ∃ m, AfterBoth (wr (.byte 0) d) (wr (.byte 1) (d >>> 8)) s m ∧
    AfterBoth (wr (.byte 2) (d >>> 16)) (wr (.byte 3) (d >>> 24)) m t

section Run

variable {wr : Lanes → Word → Instr} {handler : Handler}
  (runs : ∀ l d s, exec (wr l d) s = completeWrite s (handler s.icoll (laneMask l) (laneOpnd l d)))
include runs

theorem exec_writeLanes (l : Lanes) (d : Word) (s : State) :
    exec (wr l (d >>> laneShift l)) s =
      .next ((s.withIcoll (writeLanes handler d s.icoll l)).respond .nothing) :=
  runs l _ s

theorem exec_wordWrite (d : Word) (s : State) :
    ∃ v, exec (wr .word d) s = .next v ∧ v.icoll = writeLanes handler d s.icoll .word := by
  have shift : d >>> laneShift .word = d := BitVec.ushiftRight_zero d
  have run := exec_writeLanes runs .word d s
  rw [shift] at run
  exact ⟨_, run, rfl⟩

theorem fourByteWrites_writeBytes (d : Word) (s : State) :
    ∃ t, FourByteWrites wr d s t ∧ t.icoll = writeBytes handler d s.icoll := by
  have shift : d >>> laneShift (.byte 0) = d := BitVec.ushiftRight_zero d
  have first := exec_writeLanes runs (.byte 0) d s
  rw [shift] at first
  exact ⟨_, ⟨_, ⟨_, first, exec_writeLanes runs (.byte 1) d _⟩,
    ⟨_, exec_writeLanes runs (.byte 2) d _, exec_writeLanes runs (.byte 3) d _⟩⟩, rfl⟩

end Run

/-! ### Which bits a direct write of lanes replaces -/

theorem coveredBit_byte (b : BitVec 2) (k : Nat) : coveredBit (.byte b) k = decide (k / 8 = b.toNat) := by
  refine decide_eq_decide.2 ?_
  simp only [Lanes.lane, Lanes.width]
  omega

theorem coveredBit_word {k : Nat} (hk : k < 32) : coveredBit .word k = true := by
  simp [coveredBit, Lanes.lane, Lanes.width, hk]

/-- The bits on the written lanes become those of `d`, in place; the others stay. -/
theorem aliasBit_writeLanes (l : Lanes) (d : Word) (old : Bool) (k : Nat) :
    aliasBit 0 old ((laneMask l).getLsbD k) ((laneOpnd l (d >>> laneShift l)).getLsbD k) =
      if coveredBit l k then d.getLsbD k else old := by
  rw [laneMask_covered, laneOpnd_getLsbD, laneMask_covered]
  by_cases covered : coveredBit l k = true
  · have low : laneShift l ≤ k := (of_decide_eq_true covered).1
    have inPlace : laneShift l + (k - laneShift l) = k := by omega
    simp [aliasBit, covered, BitVec.getLsbD_ushiftRight, inPlace]
  · simp [aliasBit, covered]

/-! ### LEVELACK -/

/-- The handler of WR.LEVELACK.DIR. -/
def directLevelAck : Handler := fun c => writeLevelAck c (0 : Sel).toNat

theorem levelack_writeLanes (d : Word) (c : Collector) (l : Lanes) (k : Nat) :
    (writeLanes directLevelAck d c l).levelack.getLsbD k =
      if coveredBit l k then d.getLsbD k else c.levelack.getLsbD k := by
  rw [writeLanes, arbitrate_levelack, directLevelAck, (writeLevelAck_spec c 0 _ _).1, aliasBit_writeLanes]

theorem levelack_writeWord (d : Word) (c : Collector) : (writeLanes directLevelAck d c .word).levelack = d :=
  BitVec.eq_of_getLsbD_eq fun k hk => by rw [levelack_writeLanes, coveredBit_word hk, if_pos rfl]

theorem levelack_writeBytes (d : Word) (c : Collector) : (writeBytes directLevelAck d c).levelack = d := by
  apply BitVec.eq_of_getLsbD_eq
  intro k hk
  have lane : k / 8 = 0 ∨ k / 8 = 1 ∨ k / 8 = 2 ∨ k / 8 = 3 := by omega
  simp only [writeBytes, List.foldl, levelack_writeLanes, coveredBit_byte]
  rcases lane with h | h | h | h <;> simp [h]

/-! ### CTRL -/

/-- The handler of WR.CTRL.DIR. -/
def directCtrl : Handler := fun c => writeCtrl c (0 : Sel).toNat

/-- Only a write that covers bit 31 can force the companion bit (D8). -/
theorem ctrl_writeLanes (d : Word) (c : Collector) (l : Lanes) (k : Nat) :
    (writeLanes directCtrl d c l).ctrl.getLsbD k =
      ((if coveredBit l k then d.getLsbD k else c.ctrl.getLsbD k) ||
        (decide (k = 30) && coveredBit l 31 && !c.ctrl.getLsbD 31 && d.getLsbD 31)) := by
  rw [writeLanes, arbitrate_ctrl, directCtrl, (writeCtrl_spec c 0 _ _).1, aliasBit_writeLanes,
    aliasBit_writeLanes]
  cases coveredBit l 31 <;> simp

/-- The word with the companion bit forced on the edge of bit 31. -/
theorem ctrl_writeWord (d : Word) (c : Collector) {k : Nat} (hk : k < 32) :
    (writeLanes directCtrl d c .word).ctrl.getLsbD k =
      (d.getLsbD k || (decide (k = 30) && !c.ctrl.getLsbD 31 && d.getLsbD 31)) := by
  rw [ctrl_writeLanes, coveredBit_word hk, coveredBit_word (by decide), if_pos rfl, Bool.and_true]

/-- Bits 31 and 30 lie on lane 3, so the last byte write alone can meet the edge, from the first state's
bit 31, and nothing overwrites the bit it forces. -/
theorem ctrl_writeBytes (d : Word) (c : Collector) :
    (writeBytes directCtrl d c).ctrl = (writeLanes directCtrl d c .word).ctrl := by
  apply BitVec.eq_of_getLsbD_eq
  intro k hk
  have lane : k / 8 = 0 ∨ k / 8 = 1 ∨ k / 8 = 2 ∨ k / 8 = 3 := by omega
  rw [ctrl_writeWord d c hk]
  simp only [writeBytes, List.foldl, ctrl_writeLanes, coveredBit_byte]
  rcases lane with h | h | h | h <;> simp [h]

/-! ### The control byte of a line -/

/-- The handler of WR.INTCTL.DIR of a line. -/
def directIntctl (n : Line) : Handler := fun c => writeIntCtl c n (0 : Sel).toNat

theorem intctl_writeLanes_same (n : Line) (d : Word) (c : Collector) (l : Lanes) (k : Nat) :
    (intctlByte (writeLanes (directIntctl n) d c l).intctl n).getLsbD k =
      (decide (k < 8) && (if coveredBit l k then d.getLsbD k else (intctlByte c.intctl n).getLsbD k) &&
        !decide (k = 3)) := by
  obtain ⟨byte, -⟩ := writeIntCtl_spec c n 0 (laneMask l) (laneOpnd l (d >>> laneShift l))
  rw [writeLanes, arbitrate_intctl, ← aliasBit_writeLanes]
  exact byte k

theorem intctl_writeLanes_other {n m : Line} (other : m ≠ n) (d : Word) (c : Collector) (l : Lanes) :
    intctlByte (writeLanes (directIntctl n) d c l).intctl m = intctlByte c.intctl m := by
  obtain ⟨-, otherByte, -⟩ := writeIntCtl_spec c n 0 (laneMask l) (laneOpnd l (d >>> laneShift l))
  rw [writeLanes, arbitrate_intctl]
  exact otherByte m other

/-- The low byte without the softirq bit (D7). -/
theorem intctl_writeWord (n : Line) (d : Word) (c : Collector) {k : Nat} (hk : k < 8) :
    (intctlByte (writeLanes (directIntctl n) d c .word).intctl n).getLsbD k =
      (d.getLsbD k && !decide (k = 3)) := by
  rw [intctl_writeLanes_same, coveredBit_word (by omega), if_pos rfl, decide_eq_true hk, Bool.true_and]

/-- Only lane 0 holds bits of the byte (D15); the three later writes store it again as it is. -/
theorem intctl_writeBytes (n : Line) (d : Word) (c : Collector) :
    (writeBytes (directIntctl n) d c).intctl = (writeLanes (directIntctl n) d c .word).intctl := by
  refine intctl_ext fun m => ?_
  by_cases same : m = n
  · subst same
    apply BitVec.eq_of_getLsbD_eq
    intro k hk
    have lane : k / 8 = 0 := by omega
    rw [intctl_writeWord m d c hk]
    simp only [writeBytes, List.foldl, intctl_writeLanes_same, coveredBit_byte]
    simp [lane, hk]
  · simp [writeBytes, intctl_writeLanes_other same]

/-- Settles O31, register by register: the four byte writes and the word write run, and leave the values that
the lemmas above compare. -/
theorem fourByteWritesMakeTheWord : Obligations.FourByteWritesMakeTheWord := by
  intro s d n
  refine ⟨?_, ?_, ?_⟩
  · obtain ⟨t, bytes, ht⟩ := fourByteWrites_writeBytes (handler := directLevelAck) (exec_ackWrite 0) d s
    obtain ⟨v, word, hv⟩ := exec_wordWrite (handler := directLevelAck) (exec_ackWrite 0) d s
    exact ⟨t, v, bytes, word, by rw [ht, levelack_writeBytes], by rw [hv, levelack_writeWord]⟩
  · obtain ⟨t, bytes, ht⟩ := fourByteWrites_writeBytes (handler := directCtrl) (exec_ctrlWrite 0) d s
    obtain ⟨v, word, hv⟩ := exec_wordWrite (handler := directCtrl) (exec_ctrlWrite 0) d s
    exact ⟨t, v, bytes, word, by rw [ht, hv, ctrl_writeBytes], fun k hk => by rw [hv, ctrl_writeWord d _ hk]⟩
  · obtain ⟨t, bytes, ht⟩ := fourByteWrites_writeBytes (handler := directIntctl n) (exec_lineWrite n 0) d s
    obtain ⟨v, word, hv⟩ := exec_wordWrite (handler := directIntctl n) (exec_lineWrite n 0) d s
    exact ⟨t, v, bytes, word, by rw [ht, hv, intctl_writeBytes], fun k hk => by rw [hv, intctl_writeWord n d _ hk]⟩

end Sys2Proof.Machine
end

section
/-! SUPPORT. The encoding of operations (`30_encoding.md`): an offset as a number, what an access of given fields
decodes to, and the two round trips (R76 to R83). -/

namespace Sys2Proof

open Machine

/-! ### An offset and its fields, as numbers (R76) -/

theorem toNat_unitOf (off : Word) : (unitOf off).toNat = off.toNat / 16 := by
  have := off.isLt
  simp only [unitOf, BitVec.extractLsb'_toNat, Nat.shiftRight_eq_div_pow]
  omega

theorem toNat_selOf (off : Word) : (selOf off).toNat = off.toNat / 4 % 4 := by
  simp only [selOf, BitVec.extractLsb'_toNat, Nat.shiftRight_eq_div_pow]

theorem toNat_laneOf (off : Word) : (laneOf off).toNat = off.toNat % 4 := by
  simp only [laneOf, BitVec.extractLsb'_toNat, Nat.shiftRight_zero]

theorem toNat_mkOff (u : UnitNo) (s : Sel) (b : BitVec 2) :
    (mkOff u s b).toNat = 16 * u.toNat + 4 * s.toNat + b.toNat := by
  have unit := toNat_unitOf (mkOff u s b)
  have sel := toNat_selOf (mkOff u s b)
  have lane := toNat_laneOf (mkOff u s b)
  rw [unitOf_mkOff] at unit
  rw [selOf_mkOff] at sel
  rw [laneOf_mkOff] at lane
  omega

/-! ### The lanes of an access, by its width (R77, R87) -/

theorem laneOf_eq_iff (off : Word) (b : BitVec 2) : laneOf off = b ↔ off.toNat % 4 = b.toNat := by
  rw [← BitVec.toNat_inj, toNat_laneOf]

theorem lanesOf_malformedWidth (off : Word) {w : Nat} (not8 : w ≠ 8) (not16 : w ≠ 16) (not32 : w ≠ 32) :
    lanesOf off w = .error (.malformedWidth w) := by
  rw [lanesOf, if_neg not8, if_neg not16, if_neg not32]

theorem lanesOf_half_misaligned {off : Word} (odd : off.toNat % 2 = 1) :
    lanesOf off 16 = .error (.misaligned off 16) := by
  have lane : (laneOf off).toNat % 2 = 1 := by rw [toNat_laneOf]; omega
  have not0 : laneOf off ≠ 0 := fun eq => absurd (eq ▸ lane) (by decide)
  have not2 : laneOf off ≠ 2 := fun eq => absurd (eq ▸ lane) (by decide)
  rw [lanesOf, if_neg (by decide), if_pos rfl, if_neg not0, if_neg not2]

theorem lanesOf_word_misaligned {off : Word} (misaligned : off.toNat % 4 ≠ 0) :
    lanesOf off 32 = .error (.misaligned off 32) := by
  have not0 : laneOf off ≠ 0 := mt (laneOf_eq_iff off 0).1 misaligned
  rw [lanesOf, if_neg (by decide), if_neg (by decide), if_pos rfl, if_neg not0]

theorem lanesOf_of_legalAccess {off : Word} {w : Nat} (legal : legalAccess off w = true) :
    ∃ l, lanesOf off w = .ok l := by
  simp only [legalAccess, Bool.or_eq_true, Bool.and_eq_true, beq_iff_eq] at legal
  rcases legal with (byte | ⟨half, even⟩) | ⟨word, aligned⟩
  · exact ⟨.byte (laneOf off), if_pos byte⟩
  · subst half
    rcases (by omega : off.toNat % 4 = 0 ∨ off.toNat % 4 = 2) with lane | lane
    · have lane0 : laneOf off = 0 := (laneOf_eq_iff off 0).2 lane
      exact ⟨.half false, by simp [lanesOf, lane0]⟩
    · have lane2 : laneOf off = 2 := (laneOf_eq_iff off 2).2 lane
      exact ⟨.half true, by simp [lanesOf, lane2]⟩
  · subst word
    have lane0 : laneOf off = 0 := (laneOf_eq_iff off 0).2 aligned
    exact ⟨.word, by simp [lanesOf, lane0]⟩

/-! ### The operation of a register -/

/-- The read operation of a register: what `decodeRead` answers, from the fields of the offset (R82, R83). -/
def readInstr (r : Reg) (u : UnitNo) (sel : Sel) (l : Lanes) : Instr :=
  match r with
  | .vector => .rdVector sel l
  | .levelack => .rdLevelack sel l
  | .ctrl => .rdCtrl sel l
  | .raised b => .rdRaised b sel l
  | .raw b => .rdRaw b sel l
  | .intctl n => .rdIntctl n sel l
  | .undef => .rdUndef u sel l

/-- The write operation of a register: what `decodeWrite` answers, from the fields of the offset (R81, R83). -/
def writeInstr (r : Reg) (u : UnitNo) (sel : Sel) (l : Lanes) (d : Word) : Instr :=
  match r with
  | .vector => .wrVector sel l d
  | .levelack => ackWrite sel l d
  | .ctrl => ctrlWrite sel l d
  | .raised b => .wrRaised b sel l d
  | .raw b => .wrRaw b sel l d
  | .intctl n => lineWrite n sel l d
  | .undef => .wrUndef u sel l d

theorem decodeRead_eq (off : Word) (l : Lanes) :
    decodeRead off l = readInstr (regOf (unitOf off)) (unitOf off) (selOf off) l := by
  unfold decodeRead
  cases regOf (unitOf off) <;> rfl

theorem decodeWrite_eq (off : Word) (l : Lanes) (d : Word) :
    decodeWrite off l d = writeInstr (regOf (unitOf off)) (unitOf off) (selOf off) l d := by
  unfold decodeWrite
  cases regOf (unitOf off) <;> rfl

/-! ### What a bus transaction decodes to -/

theorem decode_br_of_lanes {off : Word} {w : Nat} {l : Lanes} (lanes : lanesOf off w = .ok l) :
    decode (.br off w) = .ok (decodeRead off l) := by
  simp only [decode, lanes]; rfl

theorem decode_bw_of_lanes {off : Word} {w : Nat} {l : Lanes} (lanes : lanesOf off w = .ok l) (d : Word) :
    decode (.bw off w d) = .ok (decodeWrite off l d) := by
  simp only [decode, lanes]; rfl

theorem decode_br_of_no_lanes {off : Word} {w : Nat} {err : DecodeError} (lanes : lanesOf off w = .error err) :
    decode (.br off w) = .error err := by
  simp only [decode, lanes]; rfl

theorem decode_bw_of_no_lanes {off : Word} {w : Nat} {err : DecodeError} (lanes : lanesOf off w = .error err)
    (d : Word) : decode (.bw off w d) = .error err := by
  simp only [decode, lanes]; rfl

theorem decode_brEvent (u : UnitNo) (sel : Sel) (l : Lanes) :
    decode (brEvent u sel l) = .ok (readInstr (regOf u) u sel l) := by
  rw [brEvent, decode_br_of_lanes (lanesOf_mkOff u sel l), decodeRead_eq, unitOf_mkOff, selOf_mkOff]

theorem decode_bwEvent (u : UnitNo) (sel : Sel) (l : Lanes) (d : Word) :
    decode (bwEvent u sel l d) = .ok (writeInstr (regOf u) u sel l d) := by
  rw [bwEvent, decode_bw_of_lanes (lanesOf_mkOff u sel l), decodeWrite_eq, unitOf_mkOff, selOf_mkOff]

/-! ### Decoding the encoding -/

/-- Settles O1: an encoded access decodes to the operation of the register its unit selects, and the unit that
the encoder chose selects the operation's own register. -/
theorem decodeOfEncodeIsTheInstruction : Obligations.DecodeOfEncodeIsTheInstruction := by
  intro i wf e enc
  cases i with
  | rdVector | rdLevelack | rdCtrl => cases enc; exact decode_brEvent _ _ _
  | rdRaised => cases enc; rw [decode_brEvent, regOf_raisedUnit]; rfl
  | rdRaw => cases enc; rw [decode_brEvent, regOf_rawUnit]; rfl
  | rdIntctl => cases enc; rw [decode_brEvent, regOf_intctlUnit]; rfl
  | rdUndef => cases enc; rw [decode_brEvent, regOf_undefined wf]; rfl
  | wrVector
  | wrLevelackDir | wrLevelackSet | wrLevelackClr | wrLevelackTog
  | wrCtrlDir | wrCtrlSet | wrCtrlClr | wrCtrlTog => cases enc; exact decode_bwEvent _ _ _ _
  | wrRaised => cases enc; rw [decode_bwEvent, regOf_raisedUnit]; rfl
  | wrRaw => cases enc; rw [decode_bwEvent, regOf_rawUnit]; rfl
  | wrIntctlDir | wrIntctlSet | wrIntctlClr | wrIntctlTog =>
    cases enc; rw [decode_bwEvent, regOf_intctlUnit]; rfl
  | wrUndef => cases enc; rw [decode_bwEvent, regOf_undefined wf]; rfl
  | lineAssert | lineDeassert | reset => cases enc; rfl
  | rap | arbitrate => cases enc

/-! ### Encoding the decoded operation -/

theorem encode_ackWrite_wellFormed (sel : Sel) (l : Lanes) (d : Word) :
    encode (ackWrite sel l d) = some (bwEvent 1 sel l d) ∧ (ackWrite sel l d).wellFormed = true := by
  rcases sel_cases sel with rfl | rfl | rfl | rfl <;> exact ⟨rfl, rfl⟩

theorem encode_ctrlWrite_wellFormed (sel : Sel) (l : Lanes) (d : Word) :
    encode (ctrlWrite sel l d) = some (bwEvent 2 sel l d) ∧ (ctrlWrite sel l d).wellFormed = true := by
  rcases sel_cases sel with rfl | rfl | rfl | rfl <;> exact ⟨rfl, rfl⟩

theorem encode_lineWrite_wellFormed (n : Line) (sel : Sel) (l : Lanes) (d : Word) :
    encode (lineWrite n sel l d) = some (bwEvent (intctlUnit n) sel l d) ∧
      (lineWrite n sel l d).wellFormed = true := by
  rcases sel_cases sel with rfl | rfl | rfl | rfl <;> exact ⟨rfl, rfl⟩

theorem encode_readInstr_wellFormed (u : UnitNo) (sel : Sel) (l : Lanes) :
    encode (readInstr (regOf u) u sel l) = some (brEvent u sel l) ∧
      (readInstr (regOf u) u sel l).wellFormed = true := by
  rcases regOf_cases u with ⟨rfl, reg⟩ | ⟨rfl, reg⟩ | ⟨rfl, reg⟩ | ⟨b, rfl, reg⟩ | ⟨b, rfl, reg⟩ |
    ⟨n, rfl, reg⟩ | ⟨undefined, reg⟩ <;> rw [reg]
  · exact ⟨rfl, rfl⟩
  · exact ⟨rfl, rfl⟩
  · exact ⟨rfl, rfl⟩
  · exact ⟨rfl, rfl⟩
  · exact ⟨rfl, rfl⟩
  · exact ⟨rfl, rfl⟩
  · exact ⟨rfl, undefined⟩

theorem encode_writeInstr_wellFormed (u : UnitNo) (sel : Sel) (l : Lanes) (d : Word) :
    encode (writeInstr (regOf u) u sel l d) = some (bwEvent u sel l d) ∧
      (writeInstr (regOf u) u sel l d).wellFormed = true := by
  rcases regOf_cases u with ⟨rfl, reg⟩ | ⟨rfl, reg⟩ | ⟨rfl, reg⟩ | ⟨b, rfl, reg⟩ | ⟨b, rfl, reg⟩ |
    ⟨n, rfl, reg⟩ | ⟨undefined, reg⟩ <;> rw [reg]
  · exact ⟨rfl, rfl⟩
  · exact encode_ackWrite_wellFormed sel l d
  · exact encode_ctrlWrite_wellFormed sel l d
  · exact ⟨rfl, rfl⟩
  · exact ⟨rfl, rfl⟩
  · exact encode_lineWrite_wellFormed n sel l d
  · exact ⟨rfl, undefined⟩

theorem brEvent_fields {off : Word} {w : Nat} {l : Lanes} (lanes : lanesOf off w = .ok l) :
    brEvent (unitOf off) (selOf off) l = .br off w := by
  obtain ⟨lane, width⟩ := lanesOf_eq_ok lanes
  rw [brEvent, lane, width, mkOff_fields]

theorem bwEvent_fields {off : Word} {w : Nat} {l : Lanes} (lanes : lanesOf off w = .ok l) (d : Word) :
    bwEvent (unitOf off) (selOf off) l d = .bw off w d := by
  obtain ⟨lane, width⟩ := lanesOf_eq_ok lanes
  rw [bwEvent, lane, width, mkOff_fields]

/-- Settles O2: the fields of a bus transaction determine it, and the operation of the register that its unit
selects encodes those fields; the other events have no field that could be dropped. -/
theorem encodeOfDecodeIsTheEvent : Obligations.EncodeOfDecodeIsTheEvent := by
  intro e i dec
  cases e with
  | bw off w d =>
    cases lanes : lanesOf off w with
    | ok l =>
      rw [decode_bw_of_lanes lanes, decodeWrite_eq] at dec
      cases dec
      rw [← bwEvent_fields lanes]
      exact encode_writeInstr_wellFormed _ _ l d
    | error err => rw [decode_bw_of_no_lanes lanes] at dec; cases dec
  | br off w =>
    cases lanes : lanesOf off w with
    | ok l =>
      rw [decode_br_of_lanes lanes, decodeRead_eq] at dec
      cases dec
      rw [← brEvent_fields lanes]
      exact encode_readInstr_wellFormed _ _ l
    | error err => rw [decode_br_of_no_lanes lanes] at dec; cases dec
  | ln n level => cases level <;> (cases dec; exact ⟨rfl, rfl⟩)
  | rs => cases dec; exact ⟨rfl, rfl⟩

/-! ### The spec's own words and the pseudo-operations (R90) -/

/-- Settles O4, by running the decoder on each event. -/
theorem wordsOfTheSpecDecode : Obligations.WordsOfTheSpecDecode :=
  ⟨rfl, rfl, rfl, rfl, rfl, rfl, rfl, rfl, rfl, rfl⟩

/-- A line's control register under selector `sel` lies `4 * sel` bytes above its base (R90). -/
theorem intctlOff_add_sel (n : Line) (sel : Sel) :
    intctlOff n + BitVec.ofNat 32 (4 * sel.toNat) = mkOff (intctlUnit n) sel 0 := by
  have := n.isLt
  have := sel.isLt
  apply BitVec.eq_of_toNat_eq
  simp only [toNat_mkOff, intctlOff, intctlUnit, BitVec.toNat_add, BitVec.ofNat_eq_ofNat, BitVec.toNat_ofNat]
  omega

theorem pendingOff_eq (b : Bank) : BitVec.ofNat 32 (0x040 + 0x10 * b.toNat) = mkOff (raisedUnit b) 0 0 := by
  have := b.isLt
  apply BitVec.eq_of_toNat_eq
  simp only [toNat_mkOff, raisedUnit, BitVec.ofNat_eq_ofNat, BitVec.toNat_ofNat]
  omega

theorem decode_lineByteWrite (n : Line) (sel : Sel) (d : Word) :
    decode (.bw (intctlOff n + BitVec.ofNat 32 (4 * sel.toNat)) 8 d) = .ok (lineWrite n sel (.byte 0) d) := by
  rw [intctlOff_add_sel]
  exact (decode_bwEvent (intctlUnit n) sel (.byte 0) d).trans (by rw [regOf_intctlUnit]; rfl)

theorem decode_pseudoPending (b : Bank) : decode (pseudoPending b) = .ok (.rdRaised b 0 .word) := by
  rw [pseudoPending, pendingOff_eq]
  exact (decode_brEvent (raisedUnit b) 0 .word).trans (by rw [regOf_raisedUnit]; rfl)

/-- Settles O5: the five operations on a line are byte writes of lane 0 through its SET or CLR register. -/
theorem pseudoOperationsDecode : Obligations.PseudoOperationsDecode :=
  ⟨rfl, rfl, decode_pseudoPending, fun n =>
    ⟨decode_lineByteWrite n 1 0x04, decode_lineByteWrite n 2 0x04, decode_lineByteWrite n 1 0x10,
      decode_lineByteWrite n 2 0x10, decode_lineByteWrite n 1 0x08⟩⟩

end Sys2Proof
end

section
/-! SUPPORT. The opcode table's mask and match rows (`30_encoding.md` R91) as ranges of units, and their
agreement with the unit map (R80). -/

namespace Sys2Proof

open Machine

/-! ### What one block of the table selects -/

@[simp] theorem unitOf_and (x y : Word) : unitOf (x &&& y) = unitOf x &&& unitOf y := BitVec.extractLsb'_and
@[simp] theorem selOf_and (x y : Word) : selOf (x &&& y) = selOf x &&& selOf y := BitVec.extractLsb'_and
@[simp] theorem laneOf_and (x y : Word) : laneOf (x &&& y) = laneOf x &&& laneOf y := BitVec.extractLsb'_and

/-- Two offsets are equal when their fields are (R76). -/
theorem off_eq_iff (x y : Word) :
    x = y ↔ unitOf x = unitOf y ∧ selOf x = selOf y ∧ laneOf x = laneOf y := by
  refine ⟨fun h => h ▸ ⟨rfl, rfl, rfl⟩, fun ⟨unit, sel, lane⟩ => ?_⟩
  rw [← mkOff_fields x, unit, sel, lane, mkOff_fields]

/-- The units from `q * 2 ^ k` up to but not with `(q + 1) * 2 ^ k`, those that agree above bit `k`. -/
structure UnitRange where
  k : Nat
  q : Nat
  fits : q * 2 ^ k < 2 ^ 28 := by decide

/-- The unit lies in one of the ranges. -/
def covers (ranges : List UnitRange) (u : UnitNo) : Bool := ranges.any fun r => u.toNat / 2 ^ r.k == r.q

/-- The block of the table that selects these units, with mask and match of the selector as given. -/
def UnitRange.block (selMask selMatch : Sel) (r : UnitRange) : Word × Word :=
  (mkOff (BitVec.allOnes 28 <<< r.k) selMask 0, mkOff (BitVec.ofNat 28 r.q <<< r.k) selMatch 0)

theorem unit_and_eq_iff (u : UnitNo) (r : UnitRange) :
    u &&& BitVec.allOnes 28 <<< r.k = BitVec.ofNat 28 r.q <<< r.k ↔ u.toNat / 2 ^ r.k = r.q := by
  have pos : 0 < 2 ^ r.k := Nat.two_pow_pos r.k
  have fits := r.fits
  have quot : r.q < 2 ^ 28 := (Nat.le_mul_of_pos_right r.q pos).trans_lt fits
  have unit : u.toNat / 2 ^ r.k * 2 ^ r.k < 2 ^ 28 := (Nat.div_mul_le_self _ _).trans_lt u.isLt
  rw [← BitVec.shiftLeft_ushiftRight, ← BitVec.toNat_inj]
  simp only [BitVec.toNat_shiftLeft, BitVec.toNat_ushiftRight, BitVec.toNat_ofNat, Nat.shiftLeft_eq,
    Nat.shiftRight_eq_div_pow]
  rw [Nat.mod_eq_of_lt unit, Nat.mod_eq_of_lt quot, Nat.mod_eq_of_lt fits]
  exact Nat.mul_left_inj pos.ne'

theorem UnitRange.block_selects (r : UnitRange) (selMask selMatch : Sel) (off : Word) :
    (off &&& (r.block selMask selMatch).1 == (r.block selMask selMatch).2) =
      ((unitOf off).toNat / 2 ^ r.k == r.q && selOf off &&& selMask == selMatch) := by
  have anyLane : laneOf off &&& 0 = 0 := BitVec.and_zero
  rw [Bool.eq_iff_iff, beq_iff_eq, Bool.and_eq_true, beq_iff_eq, beq_iff_eq, off_eq_iff]
  simp only [UnitRange.block, unitOf_and, selOf_and, laneOf_and, unitOf_mkOff, selOf_mkOff, laneOf_mkOff,
    unit_and_eq_iff, anyLane, and_true]

/-! ### What one row selects -/

/-- A row that tests the unit and leaves the selector open. -/
def unitRow (mnemonic : String) (ranges : List UnitRange) : TableRow :=
  ⟨mnemonic, ranges.map (UnitRange.block 0 0)⟩

/-- A row of one of the four aliases: it tests the unit and the selector. -/
def aliasRow (mnemonic : String) (ranges : List UnitRange) (sel : Sel) : TableRow :=
  ⟨mnemonic, ranges.map (UnitRange.block 3 sel)⟩

@[simp] theorem unitRow_mnemonic (m : String) (ranges : List UnitRange) : (unitRow m ranges).mnemonic = m := rfl

@[simp] theorem aliasRow_mnemonic (m : String) (ranges : List UnitRange) (sel : Sel) :
    (aliasRow m ranges sel).mnemonic = m := rfl

@[simp] theorem unitRow_selects (m : String) (ranges : List UnitRange) (off : Word) :
    (unitRow m ranges).selects off = covers ranges (unitOf off) := by
  have any : selOf off &&& 0 = 0 := BitVec.and_zero
  simp only [unitRow, TableRow.selects, List.any_map, Function.comp_def, UnitRange.block_selects, any,
    beq_self_eq_true, Bool.and_true, covers]

@[simp] theorem aliasRow_selects (m : String) (ranges : List UnitRange) (sel : Sel) (off : Word) :
    (aliasRow m ranges sel).selects off = (covers ranges (unitOf off) && selOf off == sel) := by
  have all : selOf off &&& 3 = selOf off := BitVec.and_allOnes
  simp only [aliasRow, TableRow.selects, List.any_map, Function.comp_def, UnitRange.block_selects, all,
    covers, List.and_any_distrib_right]

/-! ### The units of each register, as the table lists them -/

/-- Units 4 to 7. -/
def raisedRanges : List UnitRange := [{ k := 2, q := 0x1 }]

/-- Units 0xA to 0xD. -/
def rawRanges : List UnitRange := [{ k := 1, q := 0x5 }, { k := 1, q := 0x6 }]

/-- Units 0x12 to 0x91. -/
def intctlRanges : List UnitRange :=
  [{ k := 1, q := 0x9 }, { k := 2, q := 0x5 }, { k := 3, q := 0x3 }, { k := 5, q := 0x1 }, { k := 6, q := 0x1 },
   { k := 4, q := 0x8 }, { k := 1, q := 0x48 }]

theorem brRows_eq : brRows =
    [unitRow "RD.VECTOR" [{ k := 0, q := 0x0 }], unitRow "RD.LEVELACK" [{ k := 0, q := 0x1 }],
     unitRow "RD.CTRL" [{ k := 0, q := 0x2 }], unitRow "RD.RAISED" raisedRanges, unitRow "RD.RAW" rawRanges,
     unitRow "RD.INTCTL" intctlRanges] := rfl

theorem bwRows_eq : bwRows =
    [unitRow "WR.VECTOR" [{ k := 0, q := 0x0 }],
     aliasRow "WR.LEVELACK.DIR" [{ k := 0, q := 0x1 }] 0, aliasRow "WR.LEVELACK.SET" [{ k := 0, q := 0x1 }] 1,
     aliasRow "WR.LEVELACK.CLR" [{ k := 0, q := 0x1 }] 2, aliasRow "WR.LEVELACK.TOG" [{ k := 0, q := 0x1 }] 3,
     aliasRow "WR.CTRL.DIR" [{ k := 0, q := 0x2 }] 0, aliasRow "WR.CTRL.SET" [{ k := 0, q := 0x2 }] 1,
     aliasRow "WR.CTRL.CLR" [{ k := 0, q := 0x2 }] 2, aliasRow "WR.CTRL.TOG" [{ k := 0, q := 0x2 }] 3,
     unitRow "WR.RAISED" raisedRanges, unitRow "WR.RAW" rawRanges,
     aliasRow "WR.INTCTL.DIR" intctlRanges 0, aliasRow "WR.INTCTL.SET" intctlRanges 1,
     aliasRow "WR.INTCTL.CLR" intctlRanges 2, aliasRow "WR.INTCTL.TOG" intctlRanges 3] := rfl

@[simp] theorem covers_unit (q : Nat) (fits : q * 2 ^ 0 < 2 ^ 28) (u : UnitNo) :
    covers [{ k := 0, q := q, fits := fits }] u = decide (u.toNat = q) := by
  simp [covers, Bool.beq_eq_decide_eq]

@[simp] theorem covers_raisedRanges (u : UnitNo) :
    covers raisedRanges u = decide (0x4 ≤ u.toNat ∧ u.toNat ≤ 0x7) := by
  rw [Bool.eq_iff_iff]; simp [covers, raisedRanges]; omega

@[simp] theorem covers_rawRanges (u : UnitNo) :
    covers rawRanges u = decide (0xA ≤ u.toNat ∧ u.toNat ≤ 0xD) := by
  rw [Bool.eq_iff_iff]; simp [covers, rawRanges]; omega

/-- The seven ranges of the table are the 128 lines' units, without a gap. -/
@[simp] theorem covers_intctlRanges (u : UnitNo) :
    covers intctlRanges u = decide (0x12 ≤ u.toNat ∧ u.toNat ≤ 0x91) := by
  rw [Bool.eq_iff_iff]; simp [covers, intctlRanges]; omega

/-! ### The rows and the unit map -/

@[simp] theorem tableMnemonic_nil (default : String) (off : Word) : tableMnemonic [] default off = default := rfl

/-- The first row that selects the offset names it. -/
@[simp] theorem tableMnemonic_cons (row : TableRow) (rows : List TableRow) (default : String) (off : Word) :
    tableMnemonic (row :: rows) default off =
      if row.selects off then row.mnemonic else tableMnemonic rows default off := by
  unfold tableMnemonic
  cases selected : row.selects off <;> simp [selected]

/-- Along the branches of the unit map: each unit lies in the ranges of its own register's row only. -/
theorem decodeRead_mnemonic (off : Word) (l : Lanes) :
    (decodeRead off l).mnemonic = tableMnemonic brRows "RD.UNDEF" off := by
  rw [brRows_eq, decodeRead_eq]
  simp only [regOf]
  split_ifs <;> simp [*, readInstr, Instr.mnemonic]

/-- As for the reads; where the register has four aliases, the selector picks among its four rows (R81). -/
theorem decodeWrite_mnemonic (off : Word) (l : Lanes) (d : Word) :
    (decodeWrite off l d).mnemonic = tableMnemonic bwRows "WR.UNDEF" off := by
  rw [bwRows_eq, decodeWrite_eq]
  simp only [regOf]
  have selector := sel_cases (selOf off)
  split_ifs with vector levelack ctrl raised raw intctl
  · simp [vector, writeInstr, Instr.mnemonic]
  · rcases selector with sel | sel | sel | sel <;> simp [levelack, sel, writeInstr, ackWrite, bySel, Instr.mnemonic]
  · rcases selector with sel | sel | sel | sel <;> simp [ctrl, sel, writeInstr, ctrlWrite, bySel, Instr.mnemonic]
  · simp [vector, levelack, ctrl, raised, writeInstr, Instr.mnemonic]
  · simp [vector, levelack, ctrl, raised, raw, writeInstr, Instr.mnemonic]
  · rcases selector with sel | sel | sel | sel <;>
      simp [vector, levelack, ctrl, raised, raw, intctl, sel, writeInstr, lineWrite, bySel, Instr.mnemonic]
  · simp [vector, levelack, ctrl, raised, raw, intctl, writeInstr, Instr.mnemonic]

/-- Settles O3: a legal transaction has lanes, and the operation at its offset bears the name of the first row
that selects the offset. -/
theorem decodeAgreesWithMaskAndMatch : Obligations.DecodeAgreesWithMaskAndMatch := by
  intro off data w legal
  obtain ⟨l, lanes⟩ := lanesOf_of_legalAccess legal
  exact ⟨⟨_, decode_br_of_lanes lanes, decodeRead_mnemonic off l⟩,
    ⟨_, decode_bw_of_lanes lanes data, decodeWrite_mnemonic off l data⟩⟩

end Sys2Proof
end

section
/-! SUPPORT. What the step does with legal and with refused events (`30_encoding.md` R87, D5). -/

namespace Sys2Proof.Machine

theorem decode_of_legalEvent {e : PortEvent} (legal : legalEvent e = true) : ∃ i, decode e = .ok i := by
  cases e with
  | bw off w d =>
    obtain ⟨l, lanes⟩ := lanesOf_of_legalAccess (off := off) (w := w) legal
    exact ⟨_, decode_bw_of_lanes lanes d⟩
  | br off w =>
    obtain ⟨l, lanes⟩ := lanesOf_of_legalAccess (off := off) (w := w) legal
    exact ⟨_, decode_br_of_lanes lanes⟩
  | ln n level => cases level <;> exact ⟨_, rfl⟩
  | rs => exact ⟨_, rfl⟩

/-- Settles O8: a legal event decodes, and every operation answers a next state and takes no further event. -/
theorem everyLegalEventCompletes : Obligations.EveryLegalEventCompletes := by
  intro s e rest input legal
  obtain ⟨i, decodes⟩ := decode_of_legalEvent legal
  rw [step_of_decode input decodes]
  exact everyOperationIsTotal i { s with input := rest }

theorem step_of_decode_error {s : State} {e : PortEvent} {rest : List PortEvent} {err : DecodeError}
    (input : s.input = e :: rest) (decodes : decode e = .error err) : step s = .refused (refusalOf err) := by
  rcases step_cases s with ⟨empty, -⟩ | ⟨_, _, _, head, ok, -⟩ | ⟨_, _, _, head, error, refused⟩
  · rw [input] at empty; cases empty
  · rw [input] at head; cases head
    rw [decodes] at ok; cases ok
  · rw [input] at head; cases head
    rw [decodes] at error; cases error
    exact refused

/-- Settles O7: each of the three clauses names a transaction that has no lanes, and says why. -/
theorem illegalTransactionsAreRefused : Obligations.IllegalTransactionsAreRefused := by
  intro s off data w rest e input bus
  have refuses {err : DecodeError} (lanes : lanesOf off w = .error err) : step s = .refused (refusalOf err) := by
    rcases bus with rfl | rfl
    · exact step_of_decode_error input (decode_br_of_no_lanes lanes)
    · exact step_of_decode_error input (decode_bw_of_no_lanes lanes data)
  refine ⟨fun not8 not16 not32 => ?_, fun half odd => ?_, fun word misaligned => ?_⟩
  · exact refuses (lanesOf_malformedWidth off not8 not16 not32)
  · subst half; exact refuses (lanesOf_half_misaligned odd)
  · subst word; exact refuses (lanesOf_word_misaligned misaligned)

end Sys2Proof.Machine
end

section
/-! SUPPORT. RAP as an operation, and its four aliases as functions of words and of bits (`40_rap.md` R97 to
R105). -/

namespace Sys2Proof.Machine

/-! ### What RAP answers -/

/-- RAP completes from every state, hands back the old value beside the new one, and touches nothing else
(R103, R104). -/
theorem exec_rap (s : State) (old : Word) (sel : Nat) (mask opnd : Word) :
    exec (.rap old sel mask opnd) s =
      .next { s with response := .rapPair old (rap old sel mask opnd).2 } := by
  change execRap old sel mask opnd s = _
  rw [execRap, rap_fst, State.respond]

/-! One equation for each of the four aliases (R97 to R100). -/

theorem rap_direct (r m a : Word) : (rap r 0 m a).2 = r &&& ~~~m ||| a &&& m := rfl
theorem rap_set (r m a : Word) : (rap r 1 m a).2 = r ||| a &&& m := rfl
theorem rap_clr (r m a : Word) : (rap r 2 m a).2 = r &&& ~~~(a &&& m) := rfl
theorem rap_tog (r m a : Word) : (rap r 3 m a).2 = r ^^^ a &&& m := rfl

theorem rap_of_unknown {sel : Nat} (notSet : sel ≠ 1) (notClr : sel ≠ 2) (notTog : sel ≠ 3)
    (old mask opnd : Word) : rap old sel mask opnd = rap old 0 mask opnd := by
  unfold rap
  split
  · contradiction
  · contradiction
  · contradiction
  · rfl

/-- Whatever the selector, RAP acts as one of the four aliases. -/
theorem exists_sel_rap_eq (sel : Nat) :
    ∃ op : Sel, ∀ old mask opnd, rap old sel mask opnd = rap old op.toNat mask opnd := by
  by_cases isSet : sel = 1
  · exact ⟨1, fun _ _ _ => by rw [isSet]; rfl⟩
  by_cases isClr : sel = 2
  · exact ⟨2, fun _ _ _ => by rw [isClr]; rfl⟩
  by_cases isTog : sel = 3
  · exact ⟨3, fun _ _ _ => by rw [isTog]; rfl⟩
  exact ⟨0, rap_of_unknown isSet isClr isTog⟩

/-! ### The aliases bit by bit -/

theorem rap_direct_getLsbD (r m a : Word) (k : Nat) :
    (rap r 0 m a).2.getLsbD k = if m.getLsbD k then a.getLsbD k else r.getLsbD k :=
  rap_snd_getLsbD r m a 0 k

theorem rap_set_getLsbD (r m a : Word) (k : Nat) :
    (rap r 1 m a).2.getLsbD k = (r.getLsbD k || (a.getLsbD k && m.getLsbD k)) := by
  rw [Bool.and_comm]; exact rap_snd_getLsbD r m a 1 k

theorem rap_clr_getLsbD (r m a : Word) (k : Nat) :
    (rap r 2 m a).2.getLsbD k = (r.getLsbD k && !(a.getLsbD k && m.getLsbD k)) := by
  rw [Bool.and_comm (a.getLsbD k)]; exact rap_snd_getLsbD r m a 2 k

theorem rap_tog_getLsbD (r m a : Word) (k : Nat) :
    (rap r 3 m a).2.getLsbD k = (r.getLsbD k ^^ (a.getLsbD k && m.getLsbD k)) := by
  rw [Bool.and_comm]; exact rap_snd_getLsbD r m a 3 k

/-- Each of the four aliases keeps every bit that the mask leaves out, whatever the operand holds there. -/
theorem aliasBit_unmasked (sel : Sel) (old opnd : Bool) : aliasBit sel old false opnd = old := by
  rcases sel_cases sel with rfl | rfl | rfl | rfl <;> simp [aliasBit]

theorem rap_getLsbD_of_unmasked {mask : Word} {k : Nat} (unmasked : mask.getLsbD k = false) (old : Word)
    (sel : Nat) (opnd : Word) : (rap old sel mask opnd).2.getLsbD k = old.getLsbD k := by
  obtain ⟨op, same⟩ := exists_sel_rap_eq sel
  rw [same, rap_snd_getLsbD, unmasked, aliasBit_unmasked]

/-- The lane law (R102). -/
theorem rap_and_not_mask (old : Word) (sel : Nat) (mask opnd : Word) :
    (rap old sel mask opnd).2 &&& ~~~mask = old &&& ~~~mask := by
  apply BitVec.eq_of_getLsbD_eq
  intro k _
  rw [BitVec.getLsbD_and, BitVec.getLsbD_and, BitVec.getLsbD_not]
  cases masked : mask.getLsbD k with
  | false => rw [rap_getLsbD_of_unmasked masked]
  | true => simp

/-! ### The algebra of the aliases (R105) -/

/-- Two operands set after each other are their union set at once. -/
theorem rap_set_set (r m a b : Word) : (rap (rap r 1 m a).2 1 m b).2 = (rap r 1 m (a ||| b)).2 := by
  simp only [rap_set, BitVec.and_or_distrib_right, BitVec.or_assoc]

theorem rap_clr_clr (r m a b : Word) : (rap (rap r 2 m a).2 2 m b).2 = (rap r 2 m (a ||| b)).2 := by
  simp only [rap_clr, BitVec.and_or_distrib_right, BitVec.not_or, BitVec.and_assoc]

theorem rap_tog_tog (r m a b : Word) : (rap (rap r 3 m a).2 3 m b).2 = (rap r 3 m (a ^^^ b)).2 := by
  apply BitVec.eq_of_getLsbD_eq
  intro k _
  simp only [rap_tog_getLsbD, BitVec.getLsbD_xor, Bool.and_xor_distrib_right, Bool.xor_assoc]

/-- Of SET and CLR of the same operand the later one decides every bit of it. -/
theorem rap_set_clr (r m a : Word) : (rap (rap r 1 m a).2 2 m a).2 = (rap r 2 m a).2 := by
  simp only [rap_set, rap_clr, BitVec.and_or_distrib_right, BitVec.and_not_self, BitVec.ofNat_eq_ofNat,
    BitVec.or_zero]

theorem rap_clr_set (r m a : Word) : (rap (rap r 2 m a).2 1 m a).2 = (rap r 1 m a).2 := by
  apply BitVec.eq_of_getLsbD_eq
  intro k _
  rw [rap_set_getLsbD, rap_clr_getLsbD, rap_set_getLsbD, Bool.or_and_distrib_right, Bool.not_or_self,
    Bool.and_true]

theorem rap_direct_full (r a : Word) : (rap r 0 0xFFFFFFFF a).2 = a := by
  have full : (0xFFFFFFFF : Word) = BitVec.allOnes 32 := by decide
  rw [full, rap_direct, BitVec.not_allOnes, BitVec.and_zero, BitVec.zero_or, BitVec.and_allOnes]

theorem rap_direct_zero (r m : Word) : (rap r 0 m 0).2 = r &&& ~~~m := by
  rw [rap_direct, BitVec.ofNat_eq_ofNat, BitVec.zero_and, BitVec.or_zero]

theorem rap_set_zero (r m : Word) : (rap r 1 m 0).2 = r := by
  rw [rap_set, BitVec.ofNat_eq_ofNat, BitVec.zero_and, BitVec.or_zero]

theorem rap_clr_zero (r m : Word) : (rap r 2 m 0).2 = r := by
  rw [rap_clr, BitVec.ofNat_eq_ofNat, BitVec.zero_and, BitVec.not_zero, BitVec.and_allOnes]

theorem rap_tog_zero (r m : Word) : (rap r 3 m 0).2 = r := by
  rw [rap_tog, BitVec.ofNat_eq_ofNat, BitVec.zero_and, BitVec.xor_zero]

/-! The same operand twice is the composition with itself. -/

theorem rap_set_idem (r m a : Word) : (rap (rap r 1 m a).2 1 m a).2 = (rap r 1 m a).2 := by
  rw [rap_set_set, BitVec.or_self]

theorem rap_clr_idem (r m a : Word) : (rap (rap r 2 m a).2 2 m a).2 = (rap r 2 m a).2 := by
  rw [rap_clr_clr, BitVec.or_self]

theorem rap_tog_involutive (r m a : Word) : (rap (rap r 3 m a).2 3 m a).2 = r := by
  rw [rap_tog_tog, BitVec.xor_self]; exact rap_tog_zero r m

/-! ### The statements -/

/-- Settles O13: the two applications by what RAP answers, the second value by idempotence and involution. -/
theorem rapSetClearToggle : Obligations.RapSetClearToggle := by
  intro s old mask opnd
  refine ⟨_, _, _, exec_rap s old 1 mask opnd, ?again, rap_set_getLsbD old mask opnd,
    exec_rap s old 2 mask opnd, ?cleared, rap_clr_getLsbD old mask opnd,
    exec_rap s old 3 mask opnd, ?restored, rap_tog_getLsbD old mask opnd⟩
  case again => rw [exec_rap, rap_set_idem]
  case cleared => rw [exec_rap, rap_clr_idem]
  case restored => rw [exec_rap, rap_tog_involutive]

/-- Settles O15: the lane law, and for a byte the mask leaves out every bit of the other three bytes. -/
theorem rapChangesOnlyTheCoveredLanes : Obligations.RapChangesOnlyTheCoveredLanes := by
  intro s old sel
  refine ⟨fun mask opnd _ => ⟨_, exec_rap s old sel mask opnd, rap_and_not_mask old sel mask opnd⟩,
    fun b d => ⟨_, exec_rap s old sel _ _, fun k otherByte => ?_⟩⟩
  have unmasked : (laneMask (.byte b)).getLsbD k = false := by
    rw [laneMask_covered, coveredBit_byte, decide_eq_false otherByte]
  exact rap_getLsbD_of_unmasked unmasked old sel _

/-- Settles O16: the laws above, one for each equation of R105 (1) to (7). -/
theorem rapAlgebra : Obligations.RapAlgebra :=
  fun r a b m =>
    ⟨rap_set_idem r m a, rap_clr_idem r m a, rap_tog_involutive r m a, rap_set_clr r m a, rap_clr_set r m a,
      rap_set_set r m a b, rap_clr_clr r m a b, rap_tog_tog r m a b, rap_direct_full r a,
      rap_set_zero r m, rap_clr_zero r m, rap_tog_zero r m, rap_direct_zero r m⟩

/-- Settles O12, by the bits that DIRECT writes. -/
theorem rapDirectReplacesTheCoveredLanes : Obligations.RapDirectReplacesTheCoveredLanes := by
  intro s old mask opnd
  refine ⟨_, exec_rap s old 0 mask opnd, rap_direct_getLsbD old mask opnd, fun full => ?_⟩
  rw [full]
  exact rap_direct_full old opnd

/-- Settles O14: the function's last branch serves 0 and every unknown selector, and an offset's selector is a
two-bit number. -/
theorem rapUnknownSelectorIsDirect : Obligations.RapUnknownSelectorIsDirect := by
  refine ⟨fun s old mask opnd sel notSet notClr notTog => ?_, fun off => ?_⟩
  · rw [exec_rap, exec_rap, rap_of_unknown notSet notClr notTog]
  · have := (selOf off).isLt
    omega

end Sys2Proof.Machine
end

section
/-! SUPPORT. The pending latch and its line events (`41_line_latch.md`): the one bit an event writes (R110),
that a repeated event changes nothing (R114), a line that is latched while disabled (R113), the stale vector
after the last deassert (R112), and what changes a pending bit at all (R117). -/

namespace Sys2Proof.Machine

/-! ### A line event is `SetLine` -/

theorem exec_lineEvent (s : State) (n : Line) (level : Bool) :
    exec (if level then .lineAssert n else .lineDeassert n) s = completeEvent s (setLine s.icoll n level) := by
  cases level <;> rfl

theorem setLineBit_eq_self {x : Banks} {n : Line} {b : Bool} (written : lineBit x n = b) :
    setLineBit x n b = x :=
  banks_ext fun m => by
    rw [lineBit_setLineBit]
    by_cases hm : m = n
    · rw [if_pos hm, hm, written]
    · rw [if_neg hm]

/-- An event of the level that is latched already leaves an arbitrated collector as it is (R111 (1), R112 (1)). -/
theorem setLine_eq_self {c : Collector} {n : Line} {level : Bool} (latched : lineBit c.raised n = level)
    (fixed : arbitrate c = c) : setLine c n level = c := by
  rw [setLine, setLineBit_eq_self latched]
  exact fixed

theorem setLine_setLine (c : Collector) (n : Line) (level : Bool) :
    setLine (setLine c n level) n level = setLine c n level :=
  have latched : lineBit (setLine c n level).raised n = level := by simp
  setLine_eq_self latched (arbitrate_arbitrate _)

/-- Settles O35, by what `SetLine` is made of: the write of one bit, then arbitration. -/
theorem lineEventsWriteOnePendingBit : Obligations.LineEventsWriteOnePendingBit := by
  intro s n level
  exact ⟨setLineBit s.icoll.raised n level, exec_lineEvent s n level,
    fun m => lineBit_setLineBit s.icoll.raised n m level⟩

theorem exec_lineEvent_twice (s : State) (n : Line) (level : Bool) :
    let i : Instr := if level then .lineAssert n else .lineDeassert n
    ∃ t, exec i s = .next t ∧ exec i t = .next t := by
  refine ⟨_, exec_lineEvent s n level, ?_⟩
  rw [exec_lineEvent, completeEvent, State.respond_icoll, State.withIcoll_icoll, setLine_setLine]
  rfl

/-- Settles O36: the second event finds the bit latched and the collector arbitrated. -/
theorem lineEventsAreIdempotent : Obligations.LineEventsAreIdempotent := by
  intro s n i event
  rcases List.mem_pair.1 event with rfl | rfl
  · exact exec_lineEvent_twice s n true
  · exact exec_lineEvent_twice s n false

/-! ### Latching ignores the enables -/

/-- A pass sees of its two bank arrays only which lines are both raised and enabled. -/
theorem scan_congr {r e r' e' : Banks}
    (same : ∀ n, (lineBit r n = true ∧ lineBit e n = true) ↔ (lineBit r' n = true ∧ lineBit e' n = true)) :
    scan r e = scan r' e' := by
  have spec := scan_spec r e
  simp only [same] at spec
  rcases spec with ⟨n, found, least⟩ | ⟨found, nobody⟩ <;>
    rcases scan_spec r' e' with ⟨n', found', least'⟩ | ⟨found', nobody'⟩ <;> rw [found, found']
  · rw [least.unique least']
  · exact absurd least.1 (nobody' n)
  · exact absurd least'.1 (nobody n')

theorem scan_setLineBit_of_disabled {e : Banks} {n : Line} (disabled : lineBit e n = false) (r : Banks)
    (level : Bool) : scan (setLineBit r n level) e = scan r e :=
  scan_congr fun m => by
    by_cases hm : m = n
    · simp [hm, disabled]
    · simp [hm]

/-- A line that is enabled for neither class takes no part in arbitration (R113). -/
theorem setLine_of_disabled {c : Collector} {n : Line} (irq : lineBit c.irqen n = false)
    (fiq : lineBit c.fiqen n = false) (level : Bool) :
    setLine c n level = { arbitrate c with raised := setLineBit c.raised n level } := by
  have fiqPass := scan_setLineBit_of_disabled fiq c.raised level
  have irqPass := scan_setLineBit_of_disabled irq c.raised level
  cases fiqScan : scan c.raised c.fiqen with
  | some k =>
    rw [arbitrate_of_fiq fiqScan]
    exact arbitrate_of_fiq (fiqPass.trans fiqScan)
  | none =>
    cases irqScan : scan c.raised c.irqen with
    | some k =>
      rw [arbitrate_of_irq fiqScan irqScan]
      exact arbitrate_of_irq (fiqPass.trans fiqScan) (irqPass.trans irqScan)
    | none =>
      rw [arbitrate_of_none fiqScan irqScan]
      exact arbitrate_of_none (fiqPass.trans fiqScan) (irqPass.trans irqScan)

/-- Settles O37: the arbitration that closes the event sees the candidates it saw before, and the collector was
already arbitrated (INV7). -/
theorem disabledLineIsLatchedOnly : Obligations.DisabledLineIsLatchedOnly := by
  intro s n inv irq fiq
  have latched : setLine s.icoll n true = { s.icoll with raised := setLineBit s.icoll.raised n true } := by
    rw [setLine_of_disabled irq fiq, inv.fixed_point]
  refine ⟨_, exec_lineEvent s n true, ?_, ?_, fun m other => ?_⟩
  · exact (lineBit_setLine s.icoll n n true).trans (if_pos rfl)
  · rw [State.respond_icoll, State.withIcoll_icoll, latched]
  · exact (lineBit_setLine s.icoll n m true).trans (if_neg other)

/-! ### The stale vector -/

theorem arbitrate_of_no_candidate {c : Collector} (nobody : ¬ c.HasCandidate) :
    arbitrate c = { c with irqOut := false, fiqOut := false } := by
  rcases arbitrate_cases c with ⟨n, least, -⟩ | ⟨-, n, least, -⟩ | ⟨-, -, dropped⟩
  · exact absurd ⟨n, .inl least.1⟩ nobody
  · exact absurd ⟨n, .inr least.1⟩ nobody
  · exact dropped

/-- The candidates that a cleared pending bit leaves: those of the other lines. -/
theorem hasCandidate_setLineBit_false {c : Collector} {n : Line} :
    Collector.HasCandidate { c with raised := setLineBit c.raised n false } ↔
      ∃ m, m ≠ n ∧ (c.FiqCandidate m ∨ c.IrqCandidate m) := by
  refine exists_congr fun m => ?_
  simp only [Collector.FiqCandidate, Collector.IrqCandidate, lineBit_setLineBit]
  by_cases hm : m = n <;> simp [hm]

/-- Settles O38: with the bit of the last candidate clear, arbitration finds nobody, drops both outputs and
leaves VECTOR alone. -/
theorem deassertingTheLastCandidateGoesStale : Obligations.DeassertingTheLastCandidateGoesStale := by
  intro s n last
  have stale : setLine s.icoll n false =
      { s.icoll with raised := setLineBit s.icoll.raised n false, irqOut := false, fiqOut := false } := by
    refine arbitrate_of_no_candidate fun remains => ?_
    obtain ⟨m, other, candidate⟩ := hasCandidate_setLineBit_false.1 remains
    exact candidate.elim (last m other).1 (last m other).2
  refine ⟨_, exec_lineEvent s n false, ?_⟩
  rw [State.respond_icoll, State.withIcoll_icoll, stale]
  exact ⟨by simp, rfl, rfl, rfl⟩

/-! ### What changes a pending bit -/

/-- The operations that set the pending bit of a line (R117). -/
def SetsPending (i : Instr) (n : Line) : Prop :=
  i = .lineAssert n ∨ ∃ sel l d, i = lineWrite n sel l d ∧ operandBit l d 3 = true

/-- The operations that clear the pending bit of a line, with `v` in VECNUM (R117). -/
def ClearsPending (i : Instr) (v n : Line) : Prop :=
  i = .lineDeassert n ∨ (∃ sel l d, i = ackWrite sel l d ∧ v = n) ∨ i = .reset

theorem lineBit_reset (n : Line) : lineBit Collector.reset.raised n = false := by
  simp [Collector.reset, lineBit, bankWord]

/-- What any operation can do to the pending bit of a line: keep it, set it or clear it. -/
theorem exec_pending_cases {i : Instr} {s t : State} (run : exec i s = .next t) (n : Line) :
    lineBit t.icoll.raised n = lineBit s.icoll.raised n ∨
    (SetsPending i n ∧ lineBit t.icoll.raised n = true) ∨
    (ClearsPending i (vecnum s.icoll.vector) n ∧ lineBit t.icoll.raised n = false) := by
  rcases exec_cases run with same | arb | ⟨m, level, event, line⟩ | ⟨sel, l, d, write, ack⟩ |
    ⟨sel, l, d, -, ctrl⟩ | ⟨m, sel, l, d, write, intctl⟩ | ⟨isReset, reset⟩
  · rw [same]; exact .inl rfl
  · rw [arb, arbitrate_raised]; exact .inl rfl
  · rw [line, lineBit_setLine]
    by_cases own : n = m
    · subst own
      cases level with
      | true => exact .inr (.inl ⟨.inl event, if_pos rfl⟩)
      | false => exact .inr (.inr ⟨.inl event, if_pos rfl⟩)
    · exact .inl (if_neg own)
  · obtain ⟨-, raised, -⟩ := writeLevelAck_spec s.icoll sel (laneMask l) (laneOpnd l d)
    rw [ack, arbitrate_raised, raised]
    by_cases own : n = vecnum s.icoll.vector
    · exact .inr (.inr ⟨.inr (.inl ⟨sel, l, d, write, own.symm⟩), if_pos own⟩)
    · exact .inl (if_neg own)
  · rw [ctrl, arbitrate_raised]; exact .inl rfl
  · obtain ⟨-, -, -, -, raised, -⟩ := writeIntCtl_spec s.icoll m sel (laneMask l) (laneOpnd l d)
    rw [intctl, arbitrate_raised, raised, laneOpnd_operand]
    by_cases own : n = m
    · subst own
      cases injects : operandBit l d 3 with
      | true => exact .inr (.inl ⟨.inr ⟨sel, l, d, write, injects⟩, by simp⟩)
      | false => exact .inl (by simp)
    · exact .inl (by simp [own])
  · rw [reset]; exact .inr (.inr ⟨.inr (.inr isReset), lineBit_reset n⟩)

/-- Settles O47: an operation that keeps the bit changes it neither way, and one that sets or clears it is of
the list's kind. -/
theorem whatChangesAPendingBit : Obligations.WhatChangesAPendingBit := by
  intro i s t n run
  rcases exec_pending_cases run n with kept | ⟨sets, isSet⟩ | ⟨clears, isClear⟩
  · rw [kept]
    constructor <;> intro before after <;> simp [before] at after
  · exact ⟨fun _ _ => sets, fun _ after => by simp [isSet] at after⟩
  · exact ⟨fun _ after => by simp [isClear] at after, fun _ _ => clears⟩

end Sys2Proof.Machine
end

section
/-! SUPPORT. Register access (`42_register_access.md`): what a word read hands back (R122 to R127), the accesses
to undefined units (R128, R135), the writes that are discarded (R129, R132, R133), and the writes of CTRL (R131)
and of a line's control byte (R134, R137). -/

namespace Sys2Proof.Machine

/-! ### How a transaction completes -/

/-- A read at full width hands back the register as it is (R120). -/
theorem completeRead_word (s : State) (r : Word) :
    completeRead s .word r = .next { s with response := .readData r } := by
  rw [completeRead, laneRead_word, State.respond]

/-- A bus write stores the arbitrated collector and hands back nothing (R121). -/
theorem completeWrite_eq (s : State) (c : Collector) :
    completeWrite s c = .next { s with icoll := arbitrate c, response := .nothing } := rfl

theorem completeWrite_of_fixed (s : State) {c : Collector} (fixed : arbitrate c = c) :
    completeWrite s c = .next { s with icoll := c, response := .nothing } := by
  rw [completeWrite_eq, fixed]

/-! ### Word reads -/

/-- A bank word holds the bits of its 32 lines (R8). -/
theorem bankWord_getLsbD (x : Banks) (b : Bank) {k : Nat} (hk : k < 32) :
    (bankWord x b).getLsbD k = lineBit x (BitVec.ofNat 7 (32 * b.toNat + k)) := by
  have bank_lt := b.isLt
  have index : (BitVec.ofNat 7 (32 * b.toNat + k)).toNat = 32 * b.toNat + k := by
    rw [BitVec.toNat_ofNat]; omega
  have bank : bankOf (BitVec.ofNat 7 (32 * b.toNat + k)) = b :=
    BitVec.eq_of_toNat_eq (by rw [bankOf_toNat, index]; omega)
  have pos : posOf (BitVec.ofNat 7 (32 * b.toNat + k)) = k := by rw [posOf_eq, index]; omega
  rw [lineBit, bank, pos]

/-- Settles O17: each of the four reads completes with a stored word, RAISED and RAW with the same one. -/
theorem wordReadsReturnTheStoredWord : Obligations.WordReadsReturnTheStoredWord := by
  intro s sel b
  refine ⟨completeRead_word s _, completeRead_word s _, bankWord s.icoll.raised b, ?_, ?_, fun k hk => ?_⟩
  · exact completeRead_word s _
  · exact completeRead_word s _
  · exact bankWord_getLsbD s.icoll.raised b hk

/-- Settles O18: the word is the zero-extended byte, whose bit 3 is 0 by INV2. -/
theorem lineControlReadsBackTheByte : Obligations.LineControlReadsBackTheByte := by
  intro s sel n
  have low (k : Nat) : ((intctlByte s.icoll.intctl n).setWidth 32).getLsbD k =
      (decide (k < 8) && (intctlByte s.icoll.intctl n).getLsbD k) := by
    rw [BitVec.getLsbD_setWidth]
    by_cases hk : k < 8
    · simp [hk, (by omega : k < 32)]
    · simp [BitVec.getLsbD_of_ge _ k (by omega : 8 ≤ k)]
  refine ⟨(intctlByte s.icoll.intctl n).setWidth 32, completeRead_word s _, low, fun inv => ?_⟩
  rw [low, inv.softirq_clear, Bool.and_false]

/-- A VECTOR word with nothing above bit 6 is its VECNUM (R30). -/
theorem vector_eq_vecnum {v : Word} (small : v.toNat < 128) : v = BitVec.ofNat 32 (vecnum v).toNat := by
  apply BitVec.eq_of_toNat_eq
  simp only [vecnum, BitVec.extractLsb'_toNat, BitVec.toNat_ofNat, Nat.shiftRight_zero]
  omega

/-- Settles O19: the read hands back VECTOR, and INV3 and INV6 say what it holds. -/
theorem vectorReadNamesTheWinner : Obligations.VectorReadNamesTheWinner := by
  intro s sel
  exact ⟨completeRead_word s _, fun inv =>
    ⟨vector_eq_vecnum inv.wellStored.vector_lt, inv.fiq_vector, inv.irq_vector⟩⟩

/-! ### Undefined units -/

/-- The offset of a transaction from its fields and lanes, as a diagnostic reports it. -/
theorem mkOff_of_lanes {off : Word} {w : Nat} {l : Lanes} (lanes : lanesOf off w = .ok l) :
    mkOff (unitOf off) (selOf off) l.lane = off := by
  rw [(lanesOf_eq_ok lanes).1, mkOff_fields]

theorem exec_rdUndef (s : State) (u : UnitNo) (sel : Sel) (l : Lanes) :
    exec (.rdUndef u sel l) s =
      .next { s with response := .readData 0, diags := s.diags ++ [⟨.read, mkOff u sel l.lane⟩] } := rfl

theorem exec_wrUndef (s : State) (u : UnitNo) (sel : Sel) (l : Lanes) (d : Word) :
    exec (.wrUndef u sel l d) s = .next { s with
      icoll := arbitrate s.icoll, response := .nothing, diags := s.diags ++ [⟨.write, mkOff u sel l.lane⟩] } := rfl

/-- The step that takes a read of an undefined unit (R128). -/
theorem step_read_of_undefined {s : State} {off : Word} {w : Nat} {rest : List PortEvent}
    (input : s.input = .br off w :: rest) (legal : legalAccess off w = true)
    (undefined : (unitOf off).undefined = true) :
    step s = .next { s with input := rest, response := .readData 0, diags := s.diags ++ [⟨.read, off⟩] } := by
  obtain ⟨l, lanes⟩ := lanesOf_of_legalAccess legal
  have decodes : decode (.br off w) = .ok (.rdUndef (unitOf off) (selOf off) l) := by
    rw [decode_br_of_lanes lanes, decodeRead_eq, regOf_undefined undefined, readInstr]
  rw [step_of_decode input decodes, exec_rdUndef, mkOff_of_lanes lanes]

/-- The step that takes a write of an undefined unit (R135), the closing arbitration included. -/
theorem step_write_of_undefined {s : State} {off data : Word} {w : Nat} {rest : List PortEvent}
    (input : s.input = .bw off w data :: rest) (legal : legalAccess off w = true)
    (undefined : (unitOf off).undefined = true) :
    step s = .next { s with
      icoll := arbitrate s.icoll, input := rest, response := .nothing, diags := s.diags ++ [⟨.write, off⟩] } := by
  obtain ⟨l, lanes⟩ := lanesOf_of_legalAccess legal
  have decodes : decode (.bw off w data) = .ok (.wrUndef (unitOf off) (selOf off) l data) := by
    rw [decode_bw_of_lanes lanes, decodeWrite_eq, regOf_undefined undefined, writeInstr]
  rw [step_of_decode input decodes, exec_wrUndef, mkOff_of_lanes lanes]

/-- Settles O22: a legal transaction has lanes, and an undefined unit selects no register. -/
theorem undefinedReadsReturnZero : Obligations.UndefinedReadsReturnZero :=
  ⟨exec_rdUndef, fun _ _ _ _ input legal undefined => step_read_of_undefined input legal undefined⟩

/-- Settles O23: at a fixed point the closing arbitration of the write adds nothing, and the read after it meets
the same undefined unit. -/
theorem undefinedWritesAreDropped : Obligations.UndefinedWritesAreDropped := by
  refine ⟨exec_wrUndef, fun s off data w rest fixed input legal undefined => ⟨?_, ?_⟩⟩
  · rw [step_write_of_undefined input legal undefined, fixed]
  · intro w' rest' next legal'
    exact step_read_of_undefined next legal' undefined

/-! ### The read-only registers -/

/-- Settles O24: each of the three writes hands the collector on to the closing arbitration, of which a state that
keeps the invariants is a fixed point. -/
theorem readOnlyRegistersDiscardWrites : Obligations.ReadOnlyRegistersDiscardWrites := by
  intro s sel l d b i mem
  have discards : exec i s = completeWrite s s.icoll := by
    simp only [List.mem_cons, List.not_mem_nil, or_false] at mem
    rcases mem with rfl | rfl | rfl <;> rfl
  rw [discards]
  exact ⟨completeWrite_eq s s.icoll, fun inv => completeWrite_of_fixed s inv.fixed_point⟩

/-! ### The control register -/

/-- CTRL takes no part in arbitration (R131, D22). -/
theorem arbitrate_with_ctrl_of_fixed {c : Collector} (fixed : arbitrate c = c) (v : Word) :
    arbitrate { c with ctrl := v } = { c with ctrl := v } := by
  have inert := arbitrate_withInert c v c.levelack
  rw [fixed] at inert
  exact inert

/-- Settles O25: the handler writes CTRL only, bit by bit as `writeCtrl_spec` says, and arbitration does not read
it. -/
theorem controlWriteFollowsAliasAndEdge : Obligations.ControlWriteFollowsAliasAndEdge := by
  intro s sel l d
  obtain ⟨bits, frame⟩ := writeCtrl_spec s.icoll sel (laneMask l) (laneOpnd l d)
  refine ⟨(writeCtrl s.icoll sel.toNat (laneMask l) (laneOpnd l d)).ctrl, ?_, fun inv => ?_, ?_⟩
  · rw [exec_ctrlWrite, completeWrite_eq, ← frame]
  · rw [exec_ctrlWrite, frame, completeWrite_of_fixed s (arbitrate_with_ctrl_of_fixed inv.fixed_point _)]
  · intro bit k _
    simpa only [laneMask_covered, laneOpnd_operand] using bits k

/-! ### The control byte of a line -/

/-- Settles O32: the collector that the handler leaves, element by element. -/
theorem lineControlWriteRoutesAndInjects : Obligations.LineControlWriteRoutesAndInjects := by
  intro s n sel l d bit
  obtain ⟨byte, otherByte, irqen, fiqen, raised, -⟩ :=
    writeIntCtl_spec s.icoll n sel (laneMask l) (laneOpnd l d)
  simp only [laneMask_covered, laneOpnd_operand] at byte irqen fiqen raised
  refine ⟨writeIntCtl s.icoll n sel.toNat (laneMask l) (laneOpnd l d), ?_, fun k hk => ?_, otherByte,
    irqen, fiqen, raised, rfl, rfl, rfl, rfl, rfl⟩
  · rw [exec_lineWrite, completeWrite_eq]
  · rw [byte, decide_eq_true hk, Bool.true_and]

/-- No bit of the control byte is on a lane other than 0 (D15). -/
theorem coveredBit_of_upper_lane {l : Lanes} (upper : l.lane ≠ 0) {k : Nat} (hk : k < 8) :
    coveredBit l k = false := by
  have lane_pos : l.lane.toNat ≠ 0 := fun zero => upper (BitVec.eq_of_toNat_eq zero)
  exact decide_eq_false (by omega)

theorem operandBit_of_upper_lane {l : Lanes} (upper : l.lane ≠ 0) (d : Word) {k : Nat} (hk : k < 8) :
    operandBit l d k = false := by
  rw [operandBit, coveredBit_of_upper_lane upper hk, Bool.false_and]

/-- Where the mask and the operand leave the control byte out, its write stores again what was stored (R137 (7)). -/
theorem writeIntCtl_of_unmasked {c : Collector} (stored : c.WellStored) (n : Line) (sel : Sel) {mask opnd : Word}
    (unmasked : ∀ k, k < 8 → mask.getLsbD k = false) (noSoftirq : opnd.getLsbD 3 = false) :
    writeIntCtl c n sel.toNat mask opnd = c := by
  obtain ⟨byte, otherByte, irqen, fiqen, raised, frame⟩ := writeIntCtl_spec c n sel mask opnd
  have sameByte : (writeIntCtl c n sel.toNat mask opnd).intctl = c.intctl := intctl_ext fun m => by
    by_cases own : m = n
    · subst own
      apply BitVec.eq_of_getLsbD_eq
      intro k hk
      simp only [byte, hk, unmasked k hk, aliasBit_unmasked, decide_true, Bool.true_and]
      by_cases softirq : k = 3
      · rw [softirq, stored.softirq_clear m, Bool.false_and]
      · simp [softirq]
    · exact otherByte m own
  have sameIrq : (writeIntCtl c n sel.toNat mask opnd).irqen = c.irqen := banks_ext fun m => by
    simp only [irqen, unmasked 2 (by decide), aliasBit_unmasked, ← (stored.enables_match n).1]
    exact ite_eq_right_iff.2 fun own => by rw [own]
  have sameFiq : (writeIntCtl c n sel.toNat mask opnd).fiqen = c.fiqen := banks_ext fun m => by
    simp only [fiqen, unmasked 4 (by decide), aliasBit_unmasked, ← (stored.enables_match n).2]
    exact ite_eq_right_iff.2 fun own => by rw [own]
  have sameRaised : (writeIntCtl c n sel.toNat mask opnd).raised = c.raised := banks_ext fun m => by
    rw [raised, noSoftirq, Bool.and_false, Bool.or_false]
  rw [frame, sameByte, sameIrq, sameFiq, sameRaised]

/-- Settles O33: a lane other than 0 holds no bit of the byte and none of its softirq. -/
theorem upperLaneControlWritesChangeNothing : Obligations.UpperLaneControlWritesChangeNothing := by
  intro s n sel l d inv upper
  have unchanged : writeIntCtl s.icoll n sel.toNat (laneMask l) (laneOpnd l d) = s.icoll := by
    refine writeIntCtl_of_unmasked inv.wellStored n sel (fun k hk => ?_) ?_
    · rw [laneMask_covered, coveredBit_of_upper_lane upper hk]
    · rw [laneOpnd_operand, operandBit_of_upper_lane upper d (by decide)]
  rw [exec_lineWrite, unchanged, completeWrite_of_fixed s inv.fixed_point]

/-- With no FIQ candidate, arbitration presents the least IRQ candidate (R167). -/
theorem arbitrate_of_least_irq {c : Collector} {n : Line} (noFiq : ∀ m, ¬ c.FiqCandidate m)
    (least : LeastLine c.IrqCandidate n) :
    arbitrate c = { c with vector := BitVec.ofNat 32 n.toNat, irqOut := true, fiqOut := false } := by
  rcases arbitrate_cases c with ⟨m, fiq, -⟩ | ⟨-, m, irq, presents⟩ | ⟨-, noIrq, -⟩
  · exact absurd fiq.1 (noFiq m)
  · rw [presents, irq.unique least]
  · exact absurd least.1 (noIrq n)

/-- Settles O34: after the write the line is the least IRQ candidate and nobody is a FIQ candidate, since the
candidates among the other lines are those of before. -/
theorem lineControlWritePresentsTheLine : Obligations.LineControlWritePresentsTheLine := by
  intro s n sel l d bit enabled notFiq pending noFiq noLower
  obtain ⟨c, run, -, -, irqen, fiqen, raised, -⟩ := lineControlWriteRoutesAndInjects s n sel l d
  have otherRaised {m : Line} (other : m ≠ n) : lineBit c.raised m = lineBit s.icoll.raised m := by
    rw [raised, decide_eq_false other, Bool.false_and, Bool.or_false]
  have ownRaised : lineBit c.raised n = true := by
    rw [raised, decide_eq_true rfl, Bool.true_and]; exact pending
  have noFiqAfter (m : Line) : ¬ c.FiqCandidate m := by
    rintro ⟨isRaised, isEnabled⟩
    rw [fiqen] at isEnabled
    by_cases own : m = n
    · rw [if_pos own] at isEnabled
      exact absurd isEnabled (Bool.eq_false_iff.1 notFiq)
    · rw [if_neg own] at isEnabled
      exact noFiq m own ⟨otherRaised own ▸ isRaised, isEnabled⟩
  have least : LeastLine c.IrqCandidate n := by
    refine ⟨⟨ownRaised, by rw [irqen, if_pos rfl]; exact enabled⟩, fun m ⟨isRaised, isEnabled⟩ => ?_⟩
    by_contra lower
    have other : m ≠ n := fun own => lower (own ▸ Nat.le_refl _)
    rw [irqen, if_neg other] at isEnabled
    exact noLower m (Nat.lt_of_not_le lower) ⟨otherRaised other ▸ isRaised, isEnabled⟩
  refine ⟨_, run, ?_⟩
  rw [arbitrate_of_least_irq noFiqAfter least]
  exact ⟨ownRaised, rfl, rfl, rfl⟩

end Sys2Proof.Machine
end

section
/-! SUPPORT. The level-acknowledge (`43_acknowledge.md`): what it leaves before and after the closing arbitration
(R151 to R153), that nothing it carries matters (R152), the acknowledge at the sentinel (R154), and the service
state machine (R156). -/

namespace Sys2Proof.Machine

/-! ### The acknowledged collector, before arbitration -/

theorem exec_ackWrite_eq (sel : Sel) (l : Lanes) (d : Word) (s : State) :
    exec (ackWrite sel l d) s = .next { s with
      icoll := arbitrate (writeLevelAck s.icoll sel.toNat (laneMask l) (laneOpnd l d)), response := .nothing } := by
  rw [exec_ackWrite, completeWrite_eq]

theorem eq_vecnum_iff (n : Line) (v : Word) : n = vecnum v ↔ n.toNat = v.toNat % 128 := by
  rw [← BitVec.toNat_inj, vecnum, BitVec.extractLsb'_toNat, Nat.shiftRight_zero]

@[simp] theorem lineBit_writeLevelAck (c : Collector) (sel : Nat) (mask opnd : Word) (n : Line) :
    lineBit (writeLevelAck c sel mask opnd).raised n = (lineBit c.raised n && !decide (n = vecnum c.vector)) := by
  rw [writeLevelAck, lineBit_setLineBit]
  by_cases selected : n = vecnum c.vector <;> simp [selected]

/-- Settles O27: the collector that the handler leaves, element by element. -/
theorem acknowledgeClearsTheSelectedLine : Obligations.AcknowledgeClearsTheSelectedLine := by
  intro s sel l d
  obtain ⟨levelack, -, -⟩ := writeLevelAck_spec s.icoll sel (laneMask l) (laneOpnd l d)
  refine ⟨_, exec_ackWrite_eq sel l d s, fun k _ => ?_, fun n => ?_, rfl, rfl, rfl, rfl, rfl, rfl, rfl⟩
  · simpa only [laneMask_covered, laneOpnd_operand] using levelack k
  · simp only [lineBit_writeLevelAck, eq_vecnum_iff]

/-! ### The next winner -/

/-- The FIQ candidates that an acknowledge leaves: those among the other lines. -/
theorem fiqCandidate_writeLevelAck (c : Collector) (sel : Nat) (mask opnd : Word) (n : Line) :
    (writeLevelAck c sel mask opnd).FiqCandidate n ↔ n ≠ vecnum c.vector ∧ c.FiqCandidate n := by
  have fiqen : (writeLevelAck c sel mask opnd).fiqen = c.fiqen := rfl
  simp only [Collector.FiqCandidate, lineBit_writeLevelAck, fiqen, Bool.and_eq_true, Bool.not_eq_true',
    decide_eq_false_iff_not]
  tauto

theorem irqCandidate_writeLevelAck (c : Collector) (sel : Nat) (mask opnd : Word) (n : Line) :
    (writeLevelAck c sel mask opnd).IrqCandidate n ↔ n ≠ vecnum c.vector ∧ c.IrqCandidate n := by
  have irqen : (writeLevelAck c sel mask opnd).irqen = c.irqen := rfl
  simp only [Collector.IrqCandidate, lineBit_writeLevelAck, irqen, Bool.and_eq_true, Bool.not_eq_true',
    decide_eq_false_iff_not]
  tauto

theorem leastLine_congr {p q : Line → Prop} (same : ∀ m, p m ↔ q m) (n : Line) : LeastLine p n ↔ LeastLine q n := by
  simp only [LeastLine, same]

/-- Arbitration presents the least FIQ candidate, whatever the IRQ candidates are (R167). -/
theorem arbitrate_of_least_fiq {c : Collector} {n : Line} (least : LeastLine c.FiqCandidate n) :
    arbitrate c = { c with vector := BitVec.ofNat 32 n.toNat, fiqOut := true, irqOut := false } := by
  rcases arbitrate_cases c with ⟨m, fiq, presents⟩ | ⟨noFiq, -⟩ | ⟨noFiq, -⟩
  · rw [presents, fiq.unique least]
  · exact absurd least.1 (noFiq n)
  · exact absurd least.1 (noFiq n)

/-- No candidate but the selected line: the acknowledge leaves the sentinel and both outputs low (R151). -/
theorem arbitrate_writeLevelAck_of_alone {c : Collector}
    (alone : ∀ n, n ≠ vecnum c.vector → ¬ c.FiqCandidate n ∧ ¬ c.IrqCandidate n) (sel : Nat) (mask opnd : Word) :
    arbitrate (writeLevelAck c sel mask opnd) = { c with
      levelack := (writeLevelAck c sel mask opnd).levelack
      raised := (writeLevelAck c sel mask opnd).raised
      vector := vecNone, irqOut := false, fiqOut := false } := by
  refine arbitrate_of_no_candidate fun ⟨n, candidate⟩ => ?_
  rw [fiqCandidate_writeLevelAck, irqCandidate_writeLevelAck] at candidate
  rcases candidate with ⟨other, fiq⟩ | ⟨other, irq⟩
  · exact (alone n other).1 fiq
  · exact (alone n other).2 irq

/-- Settles O28: arbitration after the acknowledge sees the candidates among the other lines, and finds nobody, the
least FIQ candidate or the least IRQ candidate. -/
theorem acknowledgeMovesToTheNextWinner : Obligations.AcknowledgeMovesToTheNextWinner := by
  intro s sel l d v
  refine ⟨_, exec_ackWrite_eq sel l d s, ?_, fun alone => ?_, fun n least => ?_, fun n noFiq least => ?_⟩
  · rw [arbitrate_raised, lineBit_writeLevelAck, decide_eq_true rfl, Bool.not_true, Bool.and_false]
  · rw [arbitrate_writeLevelAck_of_alone alone]
    exact ⟨rfl, rfl, rfl⟩
  · rw [arbitrate_of_least_fiq ((leastLine_congr (fiqCandidate_writeLevelAck _ _ _ _) n).2 least)]
    exact ⟨rfl, rfl, rfl⟩
  · have noFiqLeft (m : Line) :
        ¬ (writeLevelAck s.icoll sel.toNat (laneMask l) (laneOpnd l d)).FiqCandidate m := by
      rw [fiqCandidate_writeLevelAck]
      exact fun ⟨other, fiq⟩ => noFiq m other fiq
    rw [arbitrate_of_least_irq noFiqLeft ((leastLine_congr (irqCandidate_writeLevelAck _ _ _ _) n).2 least)]
    exact ⟨rfl, rfl, rfl⟩

/-! ### What the write carries -/

/-- Arbitration hands LEVELACK on unread (R166, D21). -/
theorem arbitrate_with_levelack (c : Collector) (v : Word) :
    arbitrate { c with levelack := v } = { arbitrate c with levelack := v } :=
  calc arbitrate { c with levelack := v }
      = (arbitrate c).withInert c.ctrl v := arbitrate_withInert c c.ctrl v
    _ = (arbitrate c).withInert (arbitrate c).ctrl v := by rw [arbitrate_ctrl]

/-- Two acknowledges of one collector differ in LEVELACK only (R152). -/
theorem arbitrate_writeLevelAck_eq (c : Collector) (sel sel' : Nat) (mask mask' opnd opnd' : Word) :
    arbitrate (writeLevelAck c sel' mask' opnd') = { arbitrate (writeLevelAck c sel mask opnd) with
      levelack := (writeLevelAck c sel' mask' opnd').levelack } :=
  arbitrate_with_levelack (writeLevelAck c sel mask opnd) _

/-- Settles O29: both writes acknowledge the same line of the same collector. -/
theorem acknowledgeIgnoresWhatTheWriteCarries : Obligations.AcknowledgeIgnoresWhatTheWriteCarries := by
  intro s sel sel' l l' d d'
  refine ⟨_, _, exec_ackWrite_eq sel l d s, exec_ackWrite_eq sel' l' d' s, ?_⟩
  rw [arbitrate_writeLevelAck_eq s.icoll sel.toNat sel'.toNat (laneMask l) (laneMask l') (laneOpnd l d)]

/-! ### What the outputs say in a state that keeps the invariants -/

/-- An output is driven exactly when there is a candidate (INV4). -/
theorem Collector.Inv.driven_iff {c : Collector} (inv : c.Inv) :
    (c.irqOut || c.fiqOut) = true ↔ c.HasCandidate := by
  rw [Bool.or_eq_true, inv.irq_iff, inv.fiq_iff, Collector.HasCandidate, exists_or]
  tauto

theorem Collector.Inv.outputs_low {c : Collector} (inv : c.Inv) (nobody : ¬ c.HasCandidate) :
    c.irqOut = false ∧ c.fiqOut = false := by
  rw [← inv.driven_iff, Bool.not_eq_true, Bool.or_eq_false_iff] at nobody
  exact nobody

/-- A candidate exists only if VECNUM is one: it is the winner (INV6). -/
theorem Collector.Inv.vecnum_candidate {c : Collector} (inv : c.Inv) (candidate : c.HasCandidate) :
    c.FiqCandidate (vecnum c.vector) ∨ c.IrqCandidate (vecnum c.vector) := by
  rw [← inv.driven_iff, Bool.or_eq_true] at candidate
  rcases candidate with irq | fiq
  · exact .inr (inv.irq_vector irq).1
  · exact .inl (inv.fiq_vector fiq).1

/-! ### The acknowledge at the sentinel -/

/-- Line 127 is the last in priority, so it wins only alone in its class. -/
theorem LeastLine.eq_last {p : Line → Prop} (least : LeastLine p 127) {n : Line} (holds : p n) : n = 127 := by
  have last : 127 ≤ n.toNat := least.2 n holds
  exact BitVec.eq_of_toNat_eq (Nat.le_antisymm (Nat.le_of_lt_succ n.isLt) last)

/-- With the sentinel in VECTOR and nobody waiting, the acknowledge writes the latch and LEVELACK only (R154). -/
theorem arbitrate_writeLevelAck_of_idle {c : Collector} (inv : c.Inv) (sentinel : c.vector = vecNone)
    (nobody : ¬ c.HasCandidate) (sel : Nat) (mask opnd : Word) :
    arbitrate (writeLevelAck c sel mask opnd) = { c with
      raised := (writeLevelAck c sel mask opnd).raised
      levelack := (writeLevelAck c sel mask opnd).levelack } := by
  obtain ⟨irqOut, fiqOut⟩ := inv.outputs_low nobody
  have alone (n : Line) (_ : n ≠ vecnum c.vector) : ¬ c.FiqCandidate n ∧ ¬ c.IrqCandidate n :=
    ⟨fun fiq => nobody ⟨n, .inl fiq⟩, fun irq => nobody ⟨n, .inr irq⟩⟩
  rw [arbitrate_writeLevelAck_of_alone alone, sentinel, irqOut, fiqOut]

/-- Settles O30: at the sentinel the acknowledged line is 127. Where it is no candidate nobody is one; where it is
presented no other line of its class is a candidate, so that the acknowledge moves to what is left. -/
theorem acknowledgeAtTheSentinel : Obligations.AcknowledgeAtTheSentinel := by
  intro s sel l d inv sentinel
  have selected : vecnum s.icoll.vector = 127 := by rw [sentinel]; rfl
  obtain ⟨t, run, -, alone, -, nextIrq⟩ := acknowledgeMovesToTheNextWinner s sel l d
  have after := run
  rw [exec_ackWrite_eq] at after
  cases after
  rw [selected] at alone nextIrq
  have noOtherFiq (fiqOut : s.icoll.fiqOut = true) (n : Line) (other : n ≠ 127) : ¬ s.icoll.FiqCandidate n :=
    fun fiq => other ((selected ▸ inv.fiq_vector fiqOut).eq_last fiq)
  refine ⟨_, run, fun n => ?_, ?_, ?_, ?_, ?_, fun notFiq notIrq => ?_, fun irqOut => alone fun n other => ⟨?_, ?_⟩,
    fun fiqOut noIrq => alone fun n other => ⟨noOtherFiq fiqOut n other, noIrq n other⟩,
    fun n fiqOut => nextIrq n (noOtherFiq fiqOut)⟩
  · rw [arbitrate_raised, lineBit_writeLevelAck, selected]
  · exact arbitrate_irqen _
  · exact arbitrate_fiqen _
  · exact arbitrate_intctl _
  · exact arbitrate_ctrl _
  · have nobody : ¬ s.icoll.HasCandidate := fun candidate =>
      (selected ▸ inv.vecnum_candidate candidate).elim notFiq notIrq
    rw [arbitrate_raised, arbitrate_levelack, arbitrate_writeLevelAck_of_idle inv sentinel nobody]
  · exact fun fiq => (inv.irq_iff.1 irqOut).1 ⟨n, fiq⟩
  · exact fun irq => other ((selected ▸ inv.irq_vector irqOut).eq_last irq)

/-! ### The service state machine -/

theorem Collector.Inv.service_of_candidate {c : Collector} (inv : c.Inv) (candidate : c.HasCandidate) :
    c.service = .active (vecnum c.vector) :=
  if_pos (inv.driven_iff.2 candidate)

theorem Collector.Inv.service_of_no_candidate {c : Collector} (inv : c.Inv) (nobody : ¬ c.HasCandidate) :
    c.service = if vecnum c.vector = 0x7F then .idle else .stale (vecnum c.vector) :=
  if_neg (mt inv.driven_iff.1 nobody)

@[simp] theorem hasCandidate_arbitrate (c : Collector) : (arbitrate c).HasCandidate ↔ c.HasCandidate := by
  simp only [Collector.HasCandidate, Collector.FiqCandidate, Collector.IrqCandidate, arbitrate_raised,
    arbitrate_fiqen, arbitrate_irqen]

/-- With nobody to present, arbitration keeps the stale vector (R166). -/
theorem arbitrate_vector_of_no_candidate {c : Collector} (nobody : ¬ (arbitrate c).HasCandidate) :
    (arbitrate c).vector = c.vector := by
  rw [hasCandidate_arbitrate] at nobody
  rw [arbitrate_of_no_candidate nobody]

/-- An acknowledge or reset that leaves no candidate leaves the sentinel. -/
theorem exec_vector_of_ack_or_reset {i : Instr} {s t : State} (run : exec i s = .next t)
    (nobody : ¬ t.icoll.HasCandidate) (kind : (∃ sel l d, i = ackWrite sel l d) ∨ i = .reset) :
    t.icoll.vector = vecNone := by
  rcases kind with ⟨sel, l, d, rfl⟩ | rfl
  · rw [exec_ackWrite_eq] at run
    cases run
    exact arbitrate_vector_of_no_candidate nobody
  · cases run; rfl

/-- Any other operation that leaves no candidate keeps VECTOR: its handler does not write it. -/
theorem exec_vector_of_no_candidate {i : Instr} {s t : State} (run : exec i s = .next t)
    (nobody : ¬ t.icoll.HasCandidate) (notAck : ∀ sel l d, i ≠ ackWrite sel l d) (notReset : i ≠ .reset) :
    t.icoll.vector = s.icoll.vector := by
  rcases exec_cases run with same | arb | ⟨n, level, -, line⟩ | ⟨sel, l, d, ack, -⟩ | ⟨sel, l, d, -, ctrl⟩ |
    ⟨n, sel, l, d, -, intctl⟩ | ⟨reset, -⟩
  · rw [same]
  · rw [arb] at nobody ⊢; exact arbitrate_vector_of_no_candidate nobody
  · rw [line] at nobody ⊢; exact arbitrate_vector_of_no_candidate nobody
  · exact absurd ack (notAck sel l d)
  · rw [ctrl] at nobody ⊢; exact arbitrate_vector_of_no_candidate nobody
  · rw [intctl] at nobody ⊢; exact arbitrate_vector_of_no_candidate nobody
  · exact absurd reset notReset

/-- Settles O50: the operation keeps the invariants, so that the service state follows from the candidates and
VECNUM; with no candidate VECNUM is the sentinel of an acknowledge or reset, or what it was. -/
theorem serviceStateTransitions : Obligations.ServiceStateTransitions := by
  intro i s t inv run
  have invAfter := exec_keeps_inv run inv
  refine ⟨invAfter.service_of_candidate, fun nobody kind => ?_, fun nobody notAck notReset => ?_⟩
  · rw [invAfter.service_of_no_candidate nobody, exec_vector_of_ack_or_reset run nobody kind, vecnum_vecNone,
      if_pos rfl]
  · rw [invAfter.service_of_no_candidate nobody, exec_vector_of_no_candidate run nobody notAck notReset]

end Sys2Proof.Machine
end

section
/-! SUPPORT. Arbitration (`44_arbitration.md`): its closed form (R167), FIQ before IRQ (R169) and the lowest index
first (R170), the outputs as a function of the candidates alone (R171, R177), the fixed point (R172), who writes
VECTOR (R173), and what the passes read (R166). -/

namespace Sys2Proof.Machine

theorem exec_arbitrate (s : State) :
    exec .arbitrate s = .next { s with icoll := arbitrate s.icoll, response := .nothing } := rfl

/-! ### The winner -/

theorem exists_leastLine {p : Line → Prop} (some_line : ∃ n, p n) : ∃ n, LeastLine p n := by
  obtain ⟨n, holds, minimal⟩ := WellFounded.has_min (measure BitVec.toNat).wf {n | p n} some_line
  exact ⟨n, holds, fun m other => Nat.le_of_not_lt (minimal m other)⟩

/-- Settles O39: one equation per outcome of the two passes; the order of the lines gives the least candidate. -/
theorem arbitrateSelectsTheLeastCandidate : Obligations.ArbitrateSelectsTheLeastCandidate := by
  intro s c
  exact ⟨arbitrate c, exec_arbitrate s, fun _ least => arbitrate_of_least_fiq least,
    fun _ noFiq least => arbitrate_of_least_irq noFiq least, arbitrate_of_no_candidate,
    exists_leastLine, exists_leastLine⟩

/-- Settles O40: the least FIQ candidate is presented, which is line `n` where there is no other. -/
theorem fiqPreemptsIrq : Obligations.FiqPreemptsIrq := by
  intro s n candidate
  obtain ⟨winner, least⟩ := exists_leastLine ⟨n, candidate⟩
  refine ⟨_, exec_arbitrate s, ?_⟩
  rw [arbitrate_of_least_fiq least]
  refine ⟨rfl, rfl, ?_, fun only => ?_⟩
  · rw [vecnum_ofNat]; exact least.1
  · rw [only winner least.1]

/-! ### The outputs are a function of the candidates alone (R171) -/

theorem arbitrate_fiqOut_iff (c : Collector) : (arbitrate c).fiqOut = true ↔ ∃ n, c.FiqCandidate n := by
  rcases arbitrate_cases c with ⟨n, least, e⟩ | ⟨noFiq, _, -, e⟩ | ⟨noFiq, -, e⟩ <;> rw [e]
  · exact iff_of_true rfl ⟨n, least.1⟩
  · exact iff_of_false Bool.false_ne_true (not_exists.2 noFiq)
  · exact iff_of_false Bool.false_ne_true (not_exists.2 noFiq)

theorem arbitrate_irqOut_iff (c : Collector) :
    (arbitrate c).irqOut = true ↔ (¬ ∃ n, c.FiqCandidate n) ∧ ∃ n, c.IrqCandidate n := by
  rcases arbitrate_cases c with ⟨n, fiq, e⟩ | ⟨noFiq, n, irq, e⟩ | ⟨-, noIrq, e⟩ <;> rw [e]
  · exact iff_of_false Bool.false_ne_true fun only => only.1 ⟨n, fiq.1⟩
  · exact iff_of_true rfl ⟨not_exists.2 noFiq, n, irq.1⟩
  · exact iff_of_false Bool.false_ne_true fun only => not_exists.2 noIrq only.2

theorem arbitrate_vector_of_fiqOut {c : Collector} (driven : (arbitrate c).fiqOut = true) :
    LeastLine c.FiqCandidate (vecnum (arbitrate c).vector) := by
  obtain ⟨n, least⟩ := exists_leastLine ((arbitrate_fiqOut_iff c).1 driven)
  rw [arbitrate_of_least_fiq least, vecnum_ofNat]
  exact least

theorem arbitrate_vector_of_irqOut {c : Collector} (driven : (arbitrate c).irqOut = true) :
    LeastLine c.IrqCandidate (vecnum (arbitrate c).vector) := by
  obtain ⟨noFiq, candidate⟩ := (arbitrate_irqOut_iff c).1 driven
  obtain ⟨n, least⟩ := exists_leastLine candidate
  rw [arbitrate_of_least_irq (not_exists.1 noFiq) least, vecnum_ofNat]
  exact least

/-- Settles O41: an output at 1 tells which pass found the winner, and the lower of two lines is the least. -/
theorem lowestIndexWins : Obligations.LowestIndexWins := by
  intro s
  refine ⟨_, exec_arbitrate s, arbitrate_vector_of_fiqOut, arbitrate_vector_of_irqOut,
    fun m n lower only noFiq => ?_⟩
  have least : LeastLine s.icoll.IrqCandidate m := by
    refine ⟨(only m).2 (.inl rfl), fun k candidate => ?_⟩
    rcases (only k).1 candidate with rfl | rfl
    · exact Nat.le_refl _
    · exact Nat.le_of_lt lower
  rw [arbitrate_of_least_irq noFiq least]
  exact ⟨rfl, rfl⟩

/-! ### The banks' candidate words (R177) -/

/-- A bank's candidate word has a bit for each of its candidates (R79). -/
theorem exists_candidateWord_ne_zero_iff (r e : Banks) :
    (∃ b, bankWord r b &&& bankWord e b ≠ 0) ↔ ∃ n, lineBit r n = true ∧ lineBit e n = true := by
  constructor
  · rintro ⟨b, nonzero⟩
    by_contra nobody
    refine nonzero (BitVec.eq_of_getLsbD_eq fun k hk => ?_)
    rw [BitVec.getLsbD_and, bankWord_getLsbD r b hk, bankWord_getLsbD e b hk, BitVec.ofNat_eq_ofNat,
      BitVec.getLsbD_zero, Bool.eq_false_iff, ne_eq, Bool.and_eq_true]
    exact fun candidate => nobody ⟨_, candidate⟩
  · rintro ⟨n, raised, enabled⟩
    refine ⟨bankOf n, fun zero => ?_⟩
    have bit : (bankWord r (bankOf n) &&& bankWord e (bankOf n)).getLsbD (posOf n) = true := by
      rw [BitVec.getLsbD_and, Bool.and_eq_true]
      exact ⟨raised, enabled⟩
    rw [zero, BitVec.ofNat_eq_ofNat, BitVec.getLsbD_zero] at bit
    exact Bool.false_ne_true bit

theorem union_ne_zero_iff (w : Bank → Word) : (w 0 ||| w 1 ||| w 2 ||| w 3) ≠ 0 ↔ ∃ b, w b ≠ 0 := by
  have banks : (∀ b, w b = 0) ↔ w 0 = 0 ∧ w 1 = 0 ∧ w 2 = 0 ∧ w 3 = 0 := by
    refine ⟨fun zero => ⟨zero 0, zero 1, zero 2, zero 3⟩, fun ⟨zero₀, zero₁, zero₂, zero₃⟩ b => ?_⟩
    rcases sel_cases b with rfl | rfl | rfl | rfl
    · exact zero₀
    · exact zero₁
    · exact zero₂
    · exact zero₃
  rw [← not_forall, banks]
  simp only [ne_eq, BitVec.ofNat_eq_ofNat, BitVec.or_eq_zero_iff, and_assoc]

/-- Settles O44: an output is a function of whether its class has a candidate, and a candidate is a bit of its
bank's word. -/
theorem outputsAreUnionsOfCandidateWords : Obligations.OutputsAreUnionsOfCandidateWords := by
  intro s w
  have union (e : Banks) : (w e 0 ||| w e 1 ||| w e 2 ||| w e 3) ≠ 0 ↔
      ∃ n, lineBit s.icoll.raised n = true ∧ lineBit e n = true :=
    (union_ne_zero_iff (w e)).trans (exists_candidateWord_ne_zero_iff s.icoll.raised e)
  refine ⟨_, exec_arbitrate s, ?_, ?_⟩
  · rw [union]; exact arbitrate_fiqOut_iff s.icoll
  · rw [union, ← Bool.not_eq_true, arbitrate_fiqOut_iff]; exact arbitrate_irqOut_iff s.icoll

/-! ### The fixed point (R172) -/

/-- Settles O43: the arbitrated collector is a fixed point, and the response is `nothing` both times. -/
theorem arbitrateIsIdempotent : Obligations.ArbitrateIsIdempotent := by
  intro s
  refine ⟨_, exec_arbitrate s, ?_⟩
  rw [exec_arbitrate, arbitrate_arbitrate]

/-! ### Who writes VECTOR (R173) -/

/-- Line `n` wins the arbitration: the least FIQ candidate or, with none, the least IRQ candidate (R167). -/
def Collector.Wins (c : Collector) (n : Line) : Prop :=
  LeastLine c.FiqCandidate n ∨ (∀ m, ¬ c.FiqCandidate m) ∧ LeastLine c.IrqCandidate n

theorem arbitrate_vector_cases (c : Collector) :
    (arbitrate c).vector = c.vector ∨
    ∃ n, (arbitrate c).vector = BitVec.ofNat 32 n.toNat ∧ (arbitrate c).Wins n := by
  rcases arbitrate_cases c with ⟨n, least, e⟩ | ⟨noFiq, n, least, e⟩ | ⟨-, -, e⟩ <;> rw [e]
  · exact .inr ⟨n, rfl, .inl least⟩
  · exact .inr ⟨n, rfl, .inr ⟨noFiq, least⟩⟩
  · exact .inl rfl

/-- An arbitration that closes an operation whose handler leaves VECTOR alone changes it to the winner only. -/
theorem arbitrate_wins_of_vector_ne {c : Collector} (changed : (arbitrate c).vector ≠ c.vector) :
    ∃ n, (arbitrate c).vector = BitVec.ofNat 32 n.toNat ∧ (arbitrate c).Wins n :=
  (arbitrate_vector_cases c).resolve_left changed

/-- Settles O42: of the handlers only those of the acknowledge and of reset write VECTOR, both the sentinel; the
closing arbitration replaces it by the winner or keeps it. -/
theorem vectorIsRetained : Obligations.VectorIsRetained := by
  refine ⟨fun s nobody => ⟨_, exec_arbitrate s, ?_⟩, fun i s t run changed => ?_⟩
  · rw [arbitrate_of_no_candidate nobody]
  rcases exec_cases run with same | arb | ⟨n, level, -, line⟩ | ⟨sel, l, d, ack, acked⟩ | ⟨sel, l, d, -, ctrl⟩ |
    ⟨n, sel, l, d, -, intctl⟩ | ⟨reset, cleared⟩
  · exact absurd (congrArg Collector.vector same) changed
  · rw [arb] at changed ⊢; exact .inl (arbitrate_wins_of_vector_ne changed)
  · rw [line] at changed ⊢; exact .inl (arbitrate_wins_of_vector_ne changed)
  · rw [acked]
    rcases arbitrate_vector_cases (writeLevelAck s.icoll sel.toNat (laneMask l) (laneOpnd l d)) with
      sentinel | winner
    · exact .inr ⟨sentinel, .inl ⟨sel, l, d, ack⟩⟩
    · exact .inl winner
  · rw [ctrl] at changed ⊢; exact .inl (arbitrate_wins_of_vector_ne changed)
  · rw [intctl] at changed ⊢; exact .inl (arbitrate_wins_of_vector_ne changed)
  · rw [cleared]; exact .inr ⟨rfl, .inr reset⟩

/-! ### What arbitration reads (R166) -/

/-- Two collectors that agree on what arbitration reads get the same VECTOR and outputs. -/
theorem arbitrate_of_same_inputs {c c' : Collector} (raised : c.raised = c'.raised) (irqen : c.irqen = c'.irqen)
    (fiqen : c.fiqen = c'.fiqen) (vector : c.vector = c'.vector) :
    arbitrate c' = { c' with
      vector := (arbitrate c).vector, irqOut := (arbitrate c).irqOut, fiqOut := (arbitrate c).fiqOut } := by
  have fiqPass : scan c'.raised c'.fiqen = scan c.raised c.fiqen := by rw [raised, fiqen]
  have irqPass : scan c'.raised c'.irqen = scan c.raised c.irqen := by rw [raised, irqen]
  cases fiq : scan c.raised c.fiqen with
  | some n => rw [arbitrate_of_fiq (fiqPass.trans fiq), arbitrate_of_fiq fiq]
  | none =>
    cases irq : scan c.raised c.irqen with
    | some n => rw [arbitrate_of_irq (fiqPass.trans fiq) (irqPass.trans irq), arbitrate_of_irq fiq irq]
    | none => rw [arbitrate_of_none (fiqPass.trans fiq) (irqPass.trans irq), arbitrate_of_none fiq irq, vector]

/-- Settles O45: equal inputs give equal passes, and VECTOR is kept only where both had the same. -/
theorem arbitrateReadsOnlyItsInputs : Obligations.ArbitrateReadsOnlyItsInputs := by
  intro s s' t t' run run' raised irqen fiqen vector
  cases run
  cases run'
  rw [State.respond_icoll, State.respond_icoll, State.withIcoll_icoll, State.withIcoll_icoll,
    arbitrate_of_same_inputs raised irqen fiqen vector]
  exact ⟨rfl, rfl, rfl⟩

end Sys2Proof.Machine
end

section
/-! SUPPORT. Diagnostics and order (`60_exceptions.md`): where a diagnostic comes from and that nothing reads it
(R186, R187), and that line events on different lines commute (R191). -/

namespace Sys2Proof.Machine

/-! ### What has been emitted reaches nothing (R186) -/

/-- The machine with another record of what has been emitted on port DIAG. -/
def State.withDiags (s : State) (h : List Diag) : State := { s with diags := h }

/-- A read hands the diagnostics on unread. -/
theorem completeRead_diags {s t : State} {lanes : Lanes} {r : Word} (run : completeRead s lanes r = .next t) :
    t.diags = s.diags ∧ ∀ h, completeRead (s.withDiags h) lanes r = .next (t.withDiags h) := by
  cases run; exact ⟨rfl, fun _ => rfl⟩

/-- A bus write hands the diagnostics on unread. -/
theorem completeWrite_diags {s t : State} {c : Collector} (run : completeWrite s c = .next t) :
    t.diags = s.diags ∧ ∀ h, completeWrite (s.withDiags h) c = .next (t.withDiags h) := by
  cases run; exact ⟨rfl, fun _ => rfl⟩

/-- An event hands the diagnostics on unread. -/
theorem completeEvent_diags {s t : State} {c : Collector} (run : completeEvent s c = .next t) :
    t.diags = s.diags ∧ ∀ h, completeEvent (s.withDiags h) c = .next (t.withDiags h) := by
  cases run; exact ⟨rfl, fun _ => rfl⟩

/-- What any operation can do with the diagnostics: an access to an undefined unit appends its own; every other
operation hands them on unread. -/
theorem exec_diags_cases {i : Instr} {s t : State} (run : exec i s = .next t) :
    (t.diags = s.diags ∧ ∀ h, exec i (s.withDiags h) = .next (t.withDiags h)) ∨
    (∃ u sel l, i = .rdUndef u sel l) ∨ (∃ u sel l d, i = .wrUndef u sel l d) := by
  cases i with
  | rdUndef u sel l => exact .inr (.inl ⟨u, sel, l, rfl⟩)
  | wrUndef u sel l d => exact .inr (.inr ⟨u, sel, l, d, rfl⟩)
  | rdVector | rdLevelack | rdCtrl | rdRaised | rdRaw | rdIntctl =>
    have unread := completeRead_diags run
    exact .inl unread
  | wrVector | wrRaised | wrRaw
  | wrLevelackDir | wrLevelackSet | wrLevelackClr | wrLevelackTog
  | wrCtrlDir | wrCtrlSet | wrCtrlClr | wrCtrlTog
  | wrIntctlDir | wrIntctlSet | wrIntctlClr | wrIntctlTog =>
    have unread := completeWrite_diags run
    exact .inl unread
  | lineAssert | lineDeassert | reset | arbitrate =>
    have unread := completeEvent_diags run
    exact .inl unread
  | rap => cases run; exact .inl ⟨rfl, fun _ => rfl⟩

/-- Settles O49: the two accesses to an undefined unit append to the diagnostics and answer from the rest of the
state; every other operation only hands them on. -/
theorem diagnosticsComeFromUndefinedUnitsOnly : Obligations.DiagnosticsComeFromUndefinedUnitsOnly := by
  intro i s t run
  rcases exec_diags_cases run with ⟨kept, unread⟩ | ⟨u, sel, l, rfl⟩ | ⟨u, sel, l, d, rfl⟩
  · exact ⟨.inl kept, fun h => ⟨t.withDiags h, unread h, rfl, rfl⟩⟩
  · rw [exec_rdUndef] at run
    cases run
    exact ⟨.inr ⟨u, sel, l, .inl ⟨rfl, rfl⟩⟩, fun h => ⟨_, exec_rdUndef _ u sel l, rfl, rfl⟩⟩
  · rw [exec_wrUndef] at run
    cases run
    exact ⟨.inr ⟨u, sel, l, .inr ⟨d, rfl, rfl⟩⟩, fun h => ⟨_, exec_wrUndef _ u sel l d, rfl, rfl⟩⟩

/-! ### What an earlier arbitration left behind -/

/-- The collector with other words where arbitration writes: VECTOR and the two outputs. -/
def Collector.presenting (c : Collector) (v : Word) (irq fiq : Bool) : Collector :=
  { c with vector := v, irqOut := irq, fiqOut := fiq }

/-- Arbitration writes VECTOR and the outputs and nothing else (R166), as one equation. -/
theorem arbitrate_eq_presenting (c : Collector) : ∃ v irq fiq, arbitrate c = c.presenting v irq fiq :=
  ⟨_, _, _, arbitrate_of_same_inputs (c := c) rfl rfl rfl rfl⟩

/-- Where a candidate remains, arbitration overwrites all that was presented before. -/
theorem arbitrate_presenting_of_candidate {c : Collector} (candidate : c.HasCandidate) (v : Word)
    (irq fiq : Bool) : arbitrate (c.presenting v irq fiq) = arbitrate c := by
  rcases arbitrate_cases c with ⟨n, least, e⟩ | ⟨noFiq, n, least, e⟩ | ⟨noFiq, noIrq, -⟩
  · rw [e]; exact arbitrate_of_least_fiq (c := c.presenting v irq fiq) least
  · rw [e]; exact arbitrate_of_least_irq (c := c.presenting v irq fiq) noFiq least
  · obtain ⟨n, holds⟩ := candidate
    exact absurd holds (not_or.2 ⟨noFiq n, noIrq n⟩)

/-- With no candidate, the VECTOR that was presented before is all that stays. -/
theorem arbitrate_presenting_of_no_candidate {c : Collector} (nobody : ¬ c.HasCandidate) (v : Word)
    (irq fiq : Bool) : arbitrate (c.presenting v irq fiq) = { arbitrate c with vector := v } := by
  rw [arbitrate_of_no_candidate nobody]
  exact arbitrate_of_no_candidate (c := c.presenting v irq fiq) nobody

/-- Arbitrations that differ in what was presented before agree but for VECTOR, and altogether if a candidate
remains. -/
theorem arbitrate_presenting_congr (c : Collector) (v v' : Word) (irq irq' fiq fiq' : Bool) :
    let t := arbitrate (c.presenting v irq fiq)
    let u := arbitrate (c.presenting v' irq' fiq')
    u = { t with vector := u.vector } ∧ (t.HasCandidate → u = t) := by
  intro t u
  by_cases candidate : c.HasCandidate
  · have same : u = t := (arbitrate_presenting_of_candidate candidate v' irq' fiq').trans
      (arbitrate_presenting_of_candidate candidate v irq fiq).symm
    exact ⟨by rw [same], fun _ => same⟩
  · have stale : t = { arbitrate c with vector := v } := arbitrate_presenting_of_no_candidate candidate v irq fiq
    have stale' : u = { arbitrate c with vector := v' } :=
      arbitrate_presenting_of_no_candidate candidate v' irq' fiq'
    exact ⟨by rw [stale, stale'], fun remains => absurd ((hasCandidate_arbitrate _).1 remains) candidate⟩

/-! ### Line events on different lines commute (R191) -/

theorem setLineBit_comm {m n : Line} (distinct : m ≠ n) (x : Banks) (a b : Bool) :
    setLineBit (setLineBit x m a) n b = setLineBit (setLineBit x n b) m a := by
  refine banks_ext fun k => ?_
  simp only [lineBit_setLineBit]
  by_cases onN : k = n
  · have notM : k ≠ m := fun onM => distinct (onM.symm.trans onN)
    rw [if_pos onN, if_neg notM, if_pos onN]
  · rw [if_neg onN, if_neg onN]

/-- Two line events are both latch writes and one arbitration, which starts from what the first event presented. -/
theorem setLine_setLine_eq (c : Collector) (m n : Line) (a b : Bool) : ∃ v irq fiq,
    setLine (setLine c m a) n b =
      arbitrate (Collector.presenting { c with raised := setLineBit (setLineBit c.raised m a) n b } v irq fiq) := by
  obtain ⟨v, irq, fiq, first⟩ := arbitrate_eq_presenting { c with raised := setLineBit c.raised m a }
  refine ⟨v, irq, fiq, ?_⟩
  rw [setLine, setLine, first]
  rfl

theorem afterBoth_lineEvents (s : State) (m n : Line) (a b : Bool) :
    AfterBoth (if a then .lineAssert m else .lineDeassert m) (if b then .lineAssert n else .lineDeassert n) s
      { s with icoll := setLine (setLine s.icoll m a) n b, response := .nothing } :=
  ⟨_, exec_lineEvent s m a, exec_lineEvent _ n b⟩

/-- Settles O51: both orders latch the same two bits, and the closing arbitrations start from collectors that
differ in what the first event presented only. -/
theorem lineEventsCommute : Obligations.LineEventsCommute := by
  intro s m n a b distinct ev
  refine ⟨_, _, afterBoth_lineEvents s m n a b, afterBoth_lineEvents s n m b a, ?_⟩
  obtain ⟨v, irq, fiq, inOrder⟩ := setLine_setLine_eq s.icoll m n a b
  obtain ⟨v', irq', fiq', swapped⟩ := setLine_setLine_eq s.icoll n m b a
  rw [inOrder, swapped, ← setLineBit_comm distinct]
  exact arbitrate_presenting_congr _ v v' irq irq' fiq fiq'

end Sys2Proof.Machine
end

section
/-! SUPPORT. Reset and hazards (`70_reset_and_hazards.md`): what reset leaves in every element (R210), that an
assert retargets the vector away from a presented line (R215), and that the order of an assert and an acknowledge
decides which line is cleared (R217 (1)). -/

namespace Sys2Proof.Machine

/-! ### Reset (R210) -/

theorem exec_reset (s : State) :
    exec .reset s = .next { s with icoll := Collector.reset, response := .nothing } := rfl

/-- Bank words of zeros hold no line's bit. -/
theorem lineBit_replicate_zero (n : Line) : lineBit (Vector.replicate 4 0) n = false := by
  simp [lineBit, bankWord]

theorem intctlByte_replicate_zero (n : Line) : intctlByte (Vector.replicate 128 0) n = 0 := by
  simp [intctlByte]

/-- Settles O46: the collector that reset leaves, from whatever state, is the one constant. -/
theorem resetWritesEveryElement : Obligations.ResetWritesEveryElement := by
  intro s
  have lines (n : Line) : lineBit Collector.reset.raised n = false ∧ lineBit Collector.reset.irqen n = false ∧
      lineBit Collector.reset.fiqen n = false ∧ intctlByte Collector.reset.intctl n = 0 :=
    ⟨lineBit_reset n, lineBit_replicate_zero n, lineBit_replicate_zero n, intctlByte_replicate_zero n⟩
  exact ⟨Collector.reset, exec_reset s, lines, rfl, rfl, rfl, rfl, rfl, rfl⟩

/-! ### An assert retargets the vector (R215) -/

/-- The collector with the pending bit of line `n` set, as an assert of `n` leaves it to arbitration (R110). -/
def Collector.latching (c : Collector) (n : Line) : Collector :=
  { c with raised := setLineBit c.raised n true }

theorem setLine_true (c : Collector) (n : Line) : setLine c n true = arbitrate (c.latching n) := rfl

theorem lineBit_setLineBit_true (x : Banks) (n m : Line) :
    lineBit (setLineBit x n true) m = true ↔ m = n ∨ lineBit x m = true := by
  by_cases own : m = n <;> simp [own]

/-- The FIQ candidates with `n` latched: those of before, and `n` if it is enabled. -/
theorem fiqCandidate_latching (c : Collector) (n m : Line) :
    (c.latching n).FiqCandidate m ↔ (m = n ∧ lineBit c.fiqen n = true) ∨ c.FiqCandidate m := by
  simp only [Collector.FiqCandidate, Collector.latching, lineBit_setLineBit_true, or_and_right]
  exact or_congr_left (and_congr_right fun own => by rw [own])

theorem irqCandidate_latching (c : Collector) (n m : Line) :
    (c.latching n).IrqCandidate m ↔ (m = n ∧ lineBit c.irqen n = true) ∨ c.IrqCandidate m := by
  simp only [Collector.IrqCandidate, Collector.latching, lineBit_setLineBit_true, or_and_right]
  exact or_congr_left (and_congr_right fun own => by rw [own])

/-- With `b` latched too, an IRQ-only `b` below the presented IRQ line leads the IRQ candidates, and there is still
no FIQ candidate: VECNUM moves to `b`. -/
theorem vecnum_setLine_of_outranking {c : Collector} {b : Line} (inv : c.Inv) (irqOut : c.irqOut = true)
    (lower : b.toNat < (vecnum c.vector).toNat) (irqEnabled : lineBit c.irqen b = true)
    (notFiq : lineBit c.fiqen b = false) : vecnum (setLine c b true).vector = b := by
  obtain ⟨noFiq, -⟩ := inv.irq_iff.1 irqOut
  have noFiqLatched (m : Line) : ¬ (c.latching b).FiqCandidate m := by
    rw [fiqCandidate_latching]
    rintro (⟨-, enabled⟩ | before)
    · exact Bool.eq_false_iff.1 notFiq enabled
    · exact noFiq ⟨m, before⟩
  have least : LeastLine (c.latching b).IrqCandidate b := by
    refine ⟨(irqCandidate_latching c b b).2 (.inl ⟨rfl, irqEnabled⟩), fun m candidate => ?_⟩
    rcases (irqCandidate_latching c b m).1 candidate with ⟨rfl, -⟩ | before
    · exact Nat.le_refl _
    · exact Nat.le_trans (Nat.le_of_lt lower) ((inv.irq_vector irqOut).2 m before)
  rw [setLine_true, arbitrate_of_least_irq noFiqLatched least]
  exact vecnum_ofNat b

/-! ### The order of an assert and an acknowledge (R217) -/

/-- Assert first: the acknowledge clears whatever line the assert has left selected. -/
theorem afterBoth_assert_ack (s : State) (b : Line) (sel : Sel) (l : Lanes) (d : Word) :
    ∃ t, AfterBoth (.lineAssert b) (ackWrite sel l d) s t ∧ ∀ n, lineBit t.icoll.raised n =
      ((if n = b then true else lineBit s.icoll.raised n) &&
        !decide (n = vecnum (setLine s.icoll b true).vector)) := by
  refine ⟨_, ⟨_, exec_lineEvent s b true, exec_ackWrite_eq sel l d _⟩, fun n => ?_⟩
  rw [arbitrate_raised, lineBit_writeLevelAck, State.respond_icoll, State.withIcoll_icoll, lineBit_setLine]

/-- Acknowledge first: it clears the line selected before, and the assert latches its own line afterwards. -/
theorem afterBoth_ack_assert (s : State) (b : Line) (sel : Sel) (l : Lanes) (d : Word) :
    ∃ u, AfterBoth (ackWrite sel l d) (.lineAssert b) s u ∧ ∀ n, lineBit u.icoll.raised n =
      if n = b then true else lineBit s.icoll.raised n && !decide (n = vecnum s.icoll.vector) := by
  refine ⟨_, ⟨_, exec_ackWrite_eq sel l d s, exec_lineEvent _ b true⟩, fun n => ?_⟩
  rw [State.respond_icoll, State.withIcoll_icoll, lineBit_setLine, arbitrate_raised, lineBit_writeLevelAck]

/-- Settles O52: the assert moves VECNUM from `a` to `b`, so the acknowledge after it clears `b`; the acknowledge
before it still finds `a`. -/
theorem orderOfAssertAndAcknowledgeMatters : Obligations.OrderOfAssertAndAcknowledgeMatters := by
  intro s a b sel l d inv irqOut selected lower irqEnabled notFiq
  subst selected
  obtain ⟨t, assertThenAck, raisedT⟩ := afterBoth_assert_ack s b sel l d
  obtain ⟨u, ackThenAssert, raisedU⟩ := afterBoth_ack_assert s b sel l d
  rw [vecnum_setLine_of_outranking inv irqOut lower irqEnabled notFiq] at raisedT
  obtain ⟨pending, -⟩ := (inv.irq_vector irqOut).1
  have distinct : vecnum s.icoll.vector ≠ b := fun same => absurd lower (same ▸ Nat.lt_irrefl _)
  refine ⟨t, u, assertThenAck, ackThenAssert, ?_, ?_, ?_, ?_⟩
  · simp [raisedT]
  · simp [raisedT, distinct, pending]
  · simp [raisedU]
  · simp [raisedU, distinct]

end Sys2Proof.Machine
end
